-- ==== Sys2Proof/Word.lean ====
section
/-! DEFINITION. The words of the block: the byte, the command word, its payload, the result. 30_encoding.md R45, R46. -/

namespace Sys2Proof

/-- A register of the RTC chip, a BCD byte, an opcode or a status code. -/
abbrev Byte := BitVec 8

/-- `CMD[79:0]`, one command (R45). -/
abbrev Command := BitVec 80

/-- `P`, the payload of a command, bits 71:0 (R45). -/
abbrev Payload := BitVec 72

/-- `R`, the result of a response, bits 71:0 (R46). -/
abbrev Result := BitVec 72

end Sys2Proof
end

