-- ==== Sys2Proof/Config.lean ====
section
/-! DEFINITION. What is fixed when the block is instantiated (00_scope.md R4, R5), and the one value the spec leaves
free (93_implementation_defined.md U7). -/

namespace Sys2Proof

/-- The document's ThresholdPair, in thousandths of a degree (R4, R20, R21). Not state: no operation reads it out or
writes it. -/
structure Thresholds where
  high : Int
  low  : Int
  deriving DecidableEq, Repr

/-- The premise `T_HIGH > T_LOW` (R4). The block does not check it (93_implementation_defined.md U5). -/
abbrev Thresholds.ordered (th : Thresholds) : Prop := th.low < th.high

/-- The thresholds of this instance, `T_HIGH = -1500`, `T_LOW = -3000` (R4). DESIGN CHOICE, log entry 6: the step runs
with the instance's values; the function layer takes any pair. -/
def Config.thresholds : Thresholds := { high := -1500, low := -3000 }

/-- The epoch base with the century bit clear (R5). -/
def Config.epochClear : Int := 1900

/-- The epoch base with the century bit set (R5). -/
def Config.epochSet : Int := 2000

/-- The device address of the RTC chip on the two-wire bus (R5, R31). The host's; no operation uses it. -/
def Config.rtcDevice : Byte := 0x68

/-- FREE VALUE (93_implementation_defined.md U7, 70_reset_and_hazards.md R129; log entry 5): whether the `n`-th command
overtaken by a reset still has its response delivered. The spec allows either, so nothing is said of it. -/
opaque Config.deliverOvertaken : Nat → Bool

end Sys2Proof
end

