-- ==== Sys2Proof/Syntax.lean ====
section
/-! DEFINITION. The data formats the document fixes and the eight operations. 10_state.md R16, R18, R20; 30_encoding.md
R48 to R56. Operands are the integers, booleans and records of the function layer (00_scope.md R10). -/

namespace Sys2Proof

/-- An RtcRegisterBlock: RTC registers 0 to 6 in that order (R16). -/
structure RegBlock where
  seconds      : Byte
  minutes      : Byte
  hours        : Byte
  dayOfWeek    : Byte
  date         : Byte
  monthCentury : Byte
  year         : Byte
  deriving DecidableEq, Repr

/-- A CalendarTime: a record of seven integers (R18, R19). -/
structure CalendarTime where
  year    : Int
  month   : Int
  day     : Int
  hour    : Int
  minute  : Int
  second  : Int
  weekday : Int
  deriving DecidableEq, Repr

/-- The eight assigned opcodes by name (R48). -/
inductive Opcode where
  | bcdDec | bcdEnc | rtcDec | rtcEnc | tempPoll | tempQuery | window | relay
  deriving DecidableEq, Repr

/-- One constructor per row of the opcode table, with the operands R62 hands to the operation. -/
inductive Instr where
  /-- `BCD_DEC b` (R49, R65). -/
  | bcdDec (b : Byte)
  /-- `BCD_ENC v` (R50, R66). -/
  | bcdEnc (v : Int)
  /-- `RTC_DEC b0 .. b6` (R51, R78). -/
  | rtcDec (block : RegBlock)
  /-- `RTC_ENC t` (R52, R86). -/
  | rtcEnc (t : CalendarTime)
  /-- `TEMP_POLL r`, or `TEMP_POLL none` for "no reading available" (R20, R53, R90). -/
  | tempPoll (reading : Option Int)
  /-- `TEMP_QUERY` (R54, R93). -/
  | tempQuery
  /-- `WINDOW` with the two fields it reads (R55, R62, R101). -/
  | window (hour month : Int)
  /-- `RELAY w l` (R56, R103). -/
  | relay (timeWindowActive temperatureIsLow : Bool)
  deriving DecidableEq, Repr

/-- The opcode of an instruction (R48). -/
def Instr.opcode : Instr → Opcode
  | .bcdDec _ => .bcdDec
  | .bcdEnc _ => .bcdEnc
  | .rtcDec _ => .rtcDec
  | .rtcEnc _ => .rtcEnc
  | .tempPoll _ => .tempPoll
  | .tempQuery => .tempQuery
  | .window _ _ => .window
  | .relay _ _ => .relay

end Sys2Proof
end

