-- ==== Sys2Proof/WellFormed.lean ====
section
/-! DEFINITION. Which instructions a command word can carry: every integer operand fits its field (30_encoding.md
R49 to R56, 10_state.md R18, R20). -/

namespace Sys2Proof

/-- `v` fits an unsigned field of `n` bits. -/
def fitsU (n : Nat) (v : Int) : Bool := decide (0 ≤ v) && decide (v < 2 ^ n)

/-- `v` fits a two's-complement field of `n + 1` bits. -/
def fitsS (n : Nat) (v : Int) : Bool := decide (-(2 ^ n) ≤ v) && decide (v < 2 ^ n)

/-- Every field fits its place in a `CT72` (R18). -/
def CalendarTime.fits (t : CalendarTime) : Bool :=
  fitsU 16 t.year && fitsU 8 t.month && fitsU 8 t.day && fitsU 8 t.hour && fitsU 8 t.minute &&
    fitsU 8 t.second && fitsS 15 t.weekday

/-- The document's ranges for a valid CalendarTime (R19). No operation checks them. -/
def CalendarTime.valid (t : CalendarTime) : Bool :=
  decide (1900 ≤ t.year) && decide (1 ≤ t.month ∧ t.month ≤ 12) && decide (1 ≤ t.day ∧ t.day ≤ 31) &&
    decide (0 ≤ t.hour ∧ t.hour ≤ 23) && decide (0 ≤ t.minute ∧ t.minute ≤ 59) &&
    decide (0 ≤ t.second ∧ t.second ≤ 59) && decide (0 ≤ t.weekday ∧ t.weekday ≤ 6)

/-- A well-formed instruction: one whose operands the 72-bit payload can carry. -/
def Instr.wf : Instr → Bool
  | .bcdDec _ => true
  | .bcdEnc v => fitsS 15 v
  | .rtcDec _ => true
  | .rtcEnc t => t.fits
  | .tempPoll none => true
  | .tempPoll (some r) => fitsS 31 r
  | .tempQuery => true
  | .window hour month => fitsU 8 hour && fitsU 8 month
  | .relay _ _ => true

end Sys2Proof
end

