-- ==== Sys2Proof/Machine/Operands.lean ====
section
/-! DEFINITION. The operand and result formats: `BLK56` (10_state.md R17), `CT72` (R18), the reading (R20), and single
bits. Each format is read and written here and nowhere else. -/

namespace Sys2Proof

/-- `P[lo+7:lo]` read as an unsigned integer. -/
def u8At (p : Payload) (lo : Nat) : Int := (p.extractLsb' lo 8).toNat

/-- A 72-bit word with its low bits set to `w` and 0 above (R47). -/
def zext72 {n : Nat} (w : BitVec n) : Result := w.setWidth 72

/-- One result bit, `R[0]`. -/
def bitResult (b : Bool) : Result := zext72 (BitVec.ofBool b)

/-- `BLK56` out of payload bits 55:0: `block[k] = P[8k+7 : 8k]` (R17, R51). -/
def unpackBlock (p : Payload) : RegBlock where
  seconds      := p.extractLsb' 0 8
  minutes      := p.extractLsb' 8 8
  hours        := p.extractLsb' 16 8
  dayOfWeek    := p.extractLsb' 24 8
  date         := p.extractLsb' 32 8
  monthCentury := p.extractLsb' 40 8
  year         := p.extractLsb' 48 8

/-- A register block as a `BLK56`, register 0 in bits 7:0 (R17). -/
def packBlock (b : RegBlock) : BitVec 56 :=
  b.year ++ b.monthCentury ++ b.date ++ b.dayOfWeek ++ b.hours ++ b.minutes ++ b.seconds

/-- A `CT72` read as a CalendarTime: six unsigned fields and a signed weekday (R18). -/
def unpackTime (p : Payload) : CalendarTime where
  year    := (p.extractLsb' 0 16).toNat
  month   := u8At p 16
  day     := u8At p 24
  hour    := u8At p 32
  minute  := u8At p 40
  second  := u8At p 48
  weekday := (p.extractLsb' 56 16).toInt

/-- A CalendarTime as a `CT72` (R18). The rules that use it guarantee that every field fits (R78). -/
def packTime (t : CalendarTime) : BitVec 72 :=
  BitVec.ofInt 16 t.weekday ++ BitVec.ofInt 8 t.second ++ BitVec.ofInt 8 t.minute ++ BitVec.ofInt 8 t.hour ++
    BitVec.ofInt 8 t.day ++ BitVec.ofInt 8 t.month ++ BitVec.ofInt 16 t.year

/-- The reading in payload bits 32:0: `has_reading = P[32]`, `r = s32(P[31:0])`, ignored when there is none (R20, R53). -/
def unpackReading (p : Payload) : Option Int :=
  if p.getLsbD 32 then some (p.extractLsb' 0 32).toInt else none

/-- A reading as payload bits, with the ignored bits 0 (R53, R58). -/
def packReading : Option Int → Payload
  | none   => 0
  | some r => zext72 (1#1 ++ BitVec.ofInt 32 r)

end Sys2Proof
end

