-- ==== Sys2Proof/Decode.lean ====
section
/-! DEFINITION. Decoding a command word (30_encoding.md R48 to R62) and, after it, encoding an instruction. -/

namespace Sys2Proof

/-- Why a word is no command. -/
inductive DecodeError where
  /-- Opcode `0x00` or `0x09` to `0xFF` (R57). The block enters IllegalCommand on it (R113). -/
  | reservedOpcode (opc : Byte)
  deriving DecidableEq, Repr

/-- `CMD[79:72]` (R45). -/
def opcodeOf (w : Command) : Byte := w.extractLsb' 72 8

/-- `CMD[71:0]` (R45). -/
def payloadOf (w : Command) : Payload := w.extractLsb' 0 72

/-- The opcode map (R48). -/
def Opcode.code : Opcode → Byte
  | .bcdDec    => 0x01
  | .bcdEnc    => 0x02
  | .rtcDec    => 0x03
  | .rtcEnc    => 0x04
  | .tempPoll  => 0x05
  | .tempQuery => 0x06
  | .window    => 0x07
  | .relay     => 0x08

/-- The opcode map read the other way; the 248 reserved codes have no name (R48, R57). -/
def Opcode.ofCode (c : Byte) : Option Opcode :=
  match c.toNat with
  | 1 => some .bcdDec
  | 2 => some .bcdEnc
  | 3 => some .rtcDec
  | 4 => some .rtcEnc
  | 5 => some .tempPoll
  | 6 => some .tempQuery
  | 7 => some .window
  | 8 => some .relay
  | _ => none

/-- The `mask` column of the opcode map (R48), the same for every row. -/
def Opcode.mask : Command := 0xFF000000000000000000

/-- The `match` column of the opcode map (R48). -/
def Opcode.pattern (op : Opcode) : Command := op.code ++ (0 : Payload)

/-- The operands each operation takes from the payload (R49 to R56, R62). -/
def operandsOf (op : Opcode) (p : Payload) : Instr :=
  match op with
  | .bcdDec    => .bcdDec (p.extractLsb' 0 8)
  | .bcdEnc    => .bcdEnc (p.extractLsb' 0 16).toInt
  | .rtcDec    => .rtcDec (unpackBlock p)
  | .rtcEnc    => .rtcEnc (unpackTime p)
  | .tempPoll  => .tempPoll (unpackReading p)
  | .tempQuery => .tempQuery
  | .window    => .window (u8At p 32) (u8At p 16)
  | .relay     => .relay (p.getLsbD 0) (p.getLsbD 1)

/-- Decoding, total on all `2^80` words (R62). -/
def decode (w : Command) : Except DecodeError Instr :=
  match Opcode.ofCode (opcodeOf w) with
  | some op => .ok (operandsOf op (payloadOf w))
  | none    => .error (.reservedOpcode (opcodeOf w))

/-- The host's numbering of a table row: bit 0 is bit 0 of the command word, and every bit from `nbits` up is 0. A
command has 80 bits (R61), so a longer one is none of the block's. -/
def decodeTableWord (nbits w : Nat) : Option Instr :=
  if nbits ≤ 80 then (decode (BitVec.ofNat 80 (w % 2 ^ nbits))).toOption else none

/-- The payload of an instruction, with the ignored bits 0 (R49 to R56, R58). -/
def Instr.payload : Instr → Payload
  | .bcdDec b   => zext72 b
  | .bcdEnc v   => zext72 (BitVec.ofInt 16 v)
  | .rtcDec b   => zext72 (packBlock b)
  | .rtcEnc t   => packTime t
  | .tempPoll r => packReading r
  | .tempQuery  => 0
  | .window hour month =>
    packTime { year := 0, month := month, day := 0, hour := hour, minute := 0, second := 0, weekday := 0 }
  | .relay w l  => zext72 (BitVec.ofBool l ++ BitVec.ofBool w)

/-- The command word of a well-formed instruction (R45, R48). -/
def encode (i : Instr) : Command := i.opcode.code ++ i.payload

/-- The payload bits an operation reads; the others are marked "ignored" (R49 to R56). With no reading, `P[31:0]` is
ignored as well (R53), so TEMP_POLL's bits depend on `P[32]`. -/
def usedBits (op : Opcode) (p : Payload) : Payload :=
  match op with
  | .bcdDec    => 0x0000000000000000FF
  | .bcdEnc    => 0x00000000000000FFFF
  | .rtcDec    => 0x0000FFFFFFFFFFFFFF
  | .rtcEnc    => 0xFFFFFFFFFFFFFFFFFF
  | .tempPoll  => if p.getLsbD 32 then 0x0000000001FFFFFFFF else 0x000000000100000000
  | .tempQuery => 0
  | .window    => 0x00000000FF00FF0000
  | .relay     => 0x000000000000000003

end Sys2Proof
end

