-- ==== Sys2Proof/Machine/State.lean ====
section
/-! DEFINITION. The block's state (10_state.md R13 to R15), its two ports, and reset (R28). Plain data. -/

namespace Sys2Proof.Machine

/-- The errors a step of the block can raise (60_exceptions.md R108, R109, R113). HardwareIOError and SensorAbsent arise
in the host and never reach the block as a fault. -/
inductive BlockError where
  | rangeError
  | illegalCommand
  deriving DecidableEq, Repr

/-- The values of `S.cause` (R15). The codes `0x03` to `0xFF` are never written and have no name
(93_implementation_defined.md U11; log entry 10). -/
inductive Cause where
  | none
  | rangeError
  | illegalCommand
  deriving DecidableEq, Repr

/-- One response (30_encoding.md R46). Only an `OK` response has a result; a response that is not `OK` is given no value
(R47, 93_implementation_defined.md U6; log entry 4). -/
inductive Response where
  | ok (result : Result)
  | rangeError
  | illegalCommand
  | refused
  deriving DecidableEq, Repr

/-- What the host can do to the block: present a command, assert `rst`, or assert `rst` while a command is outstanding
(70_reset_and_hazards.md R128, R129). -/
inductive HostInput where
  | command (w : Command)
  | reset
  | overtaken (w : Command)
  deriving DecidableEq, Repr

/-- `isLow`, `fault` and `cause` are the spec's whole state. `inputs` and `responses` are the command port and the
response port as data (log entries 1 and 2: inputs oldest first, responses newest first); `freeCount` numbers the free
values used (log entry 5). -/
structure State where
  isLow     : Bool
  fault     : Bool
  cause     : Cause
  inputs    : List HostInput
  responses : List Response
  freeCount : Nat
  deriving DecidableEq, Repr

/-- Reset values of `S` (R28, R128): not low, not faulted, cause NONE. The ports are empty (DESIGN CHOICE, log entries 1
and 2) and the counter is 0 (DESIGN CHOICE, log entry 5). -/
def State.reset : State :=
  { isLow := false, fault := false, cause := .none, inputs := [], responses := [], freeCount := 0 }

/-- Reasons for a step to stop with no next state. There are none: each fault of the spec has an entry the spec describes
and is taken as a next state (R112; log entry 7). -/
inductive Fault where
  deriving DecidableEq, Repr

/-- Reasons for refusing an instruction. The block's own REFUSED response is a next state and none of these (R114; log
entry 7). -/
inductive Refusal where
  /-- An instruction without a meaning yet, raised by exec's arm for it alone (safe). No arm raises it. -/
  | notModelled (mnemonic : String)
  deriving DecidableEq, Repr

end Sys2Proof.Machine
end

