-- ==== Sys2Proof/Machine/Flags.lean ====
section
/-! DEFINITION. The block's two flags (10_state.md R24), the cause beside them, and the pins that show them (R25). There
are no condition codes: no operation sets a flag as a side effect of computing something else. -/

namespace Sys2Proof.Machine

/-- The code of a cause (R15). -/
def Cause.code : Cause → Byte
  | .none           => 0x00
  | .rangeError     => 0x01
  | .illegalCommand => 0x02

/-- The cause a raised error records (R108, R112). -/
def BlockError.cause : BlockError → Cause
  | .rangeError     => .rangeError
  | .illegalCommand => .illegalCommand

/-- `S.is_low <- v`; TEMP_POLL alone uses it (R13, R90). -/
def State.setIsLow (s : State) (v : Bool) : State := { s with isLow := v }

/-- `S.fault <- 1; S.cause <- c` (R112). -/
def State.recordFault (s : State) (e : BlockError) : State := { s with fault := true, cause := e.cause }

/-- Every element of `S` at its reset value (R28, R128). The ports are no part of `S`. -/
def State.clear (s : State) : State := { s with isLow := false, fault := false, cause := .none }

/-- The pin `is_low_o` (R25). -/
def State.isLowO (s : State) : Bool := s.isLow

/-- The pin `fault_o` (R25). -/
def State.faultO (s : State) : Bool := s.fault

/-- The pins `cause_o[7:0]` (R25). -/
def State.causeO (s : State) : Byte := s.cause.code

end Sys2Proof.Machine
end

