-- ==== Sys2Proof/Machine/Ops.lean ====
section
/-! DEFINITION. The named operations every meaning is written with: the response port, the end of a step, taking a fault
(60_exceptions.md R112), refusal (R114), reset (70_reset_and_hazards.md R128, R129), and the order of the tests of one
step (R115). -/

namespace Sys2Proof.Machine

/-- What a step answers. -/
abbrev Answer := Host.Outcome State Fault Refusal

/-- The status byte of a response (R46). -/
def Response.status : Response → Byte
  | .ok _           => 0x00
  | .rangeError     => 0x01
  | .illegalCommand => 0x02
  | .refused        => 0x03

/-- The 80-bit words the response port may show for a response: the status is fixed, the result only when the status is
`OK` (R46, R47). -/
def Response.shows (r : Response) (w : BitVec 80) : Bool :=
  (w.extractLsb' 72 8 == r.status) &&
    match r with
    | .ok result => w.extractLsb' 0 72 == result
    | _          => true

/-- The response of a step that raised `e` (R46, R112). -/
def BlockError.response : BlockError → Response
  | .rangeError     => .rangeError
  | .illegalCommand => .illegalCommand

/-- One response leaves the response port (R46; log entry 2). -/
def State.deliver (s : State) (r : Response) : State := { s with responses := r :: s.responses }

/-- The step ends with status `OK` and the result `r`. -/
def finish (r : Result) (s : State) : Answer := .next (s.deliver (.ok r))

/-- THE FAULT RULE, the one way a fault is taken (R112): the flag, the cause and the status; `is_low` is unchanged, and
nothing the operation computed before is kept. There is no return from it but reset (R116). -/
def takeFault (e : BlockError) (s : State) : Answer := .next ((s.recordFault e).deliver e.response)

/-- A computed result ends the step, a raised error is taken (R115, third test). -/
def finishOrFault (r : Except BlockError Result) (s : State) : Answer :=
  match r with
  | .ok v    => finish v s
  | .error e => takeFault e s

/-- The refusal of a faulted block: `S` unchanged, status REFUSED (R114). -/
def refuse (s : State) : Answer := .next (s.deliver .refused)

/-- One command word, tested in the order of R115: refusal, reserved opcode, then the operation by `run`. -/
def runCommand (run : Instr → State → Answer) (w : Command) (s : State) : Answer :=
  if s.fault then refuse s
  else
    match decode w with
    | .error _ => takeFault .illegalCommand s
    | .ok i    => run i s

/-- The responses after command `w` when it runs to its end, as R115 says. -/
def responsesAfter (run : Instr → State → Answer) (w : Command) (s : State) : List Response :=
  match runCommand run w s with
  | .next t    => t.responses
  | .fault _   => s.responses
  | .refused _ => s.responses

/-- `rst` asserted while command `w` is outstanding (R129): the reset wins, so `S` is cleared either way; whether the
command's response is delivered is free (93_implementation_defined.md U7; log entry 5). -/
def overtake (run : Instr → State → Answer) (w : Command) (s : State) : State :=
  { s.clear with
    responses := if Config.deliverOvertaken s.freeCount then responsesAfter run w s else s.responses
    freeCount := s.freeCount + 1 }

/-- One host input, with the rest of the inputs still in the state (R115, R128, R129). -/
def runInput (run : Instr → State → Answer) (inp : HostInput) (s : State) : Answer :=
  match inp with
  | .command w   => runCommand run w s
  | .reset       => .next s.clear
  | .overtaken w => .next (overtake run w s)

/-- The state with `rest` as the inputs still to come. -/
def State.withInputs (s : State) (rest : List HostInput) : State := { s with inputs := rest }

/-- Taking the next host input off `inputs`. With none there, the block keeps its state: an idle step (60_exceptions.md
R126; DESIGN CHOICE, log entry 3). -/
def runNext (run : Instr → State → Answer) (s : State) : Answer :=
  match s.inputs with
  | []          => .next s
  | inp :: rest => runInput run inp (s.withInputs rest)

/-- A command put at the head of the inputs, so that the next step takes it. -/
def State.present (s : State) (w : Command) : State := { s with inputs := .command w :: s.inputs }

end Sys2Proof.Machine
end

