-- ==== Sys2Proof/Machine/BcdCodec.lean ====
section
/-! DEFINITION. Unit U1, the BCD codec: BCD_DEC and BCD_ENC. 40_bcd_codec.md R63 to R66. -/

namespace Sys2Proof.Machine

/-- `((b >> 4) & 0xF) * 10 + (b & 0xF)`, total on every byte (R63). -/
def decodeBcd (b : Byte) : Int := ((b >>> 4) &&& 0x0F).toNat * 10 + (b &&& 0x0F).toNat

/-- `((v / 10) << 4) | (v % 10)` for `v` in 0 to 99, RangeError for every other integer (R64). -/
def encodeBcd (v : Int) : Except BlockError Byte :=
  if v < 0 ∨ v > 99 then .error .rangeError
  else .ok ((BitVec.ofInt 8 (v / 10) <<< 4) ||| BitVec.ofInt 8 (v % 10))

/-- BCD_DEC (R65): `R[7:0] <- u8(decode_bcd(byte))`. -/
def execBcdDec (b : Byte) (s : State) : Answer := finish (zext72 (BitVec.ofInt 8 (decodeBcd b))) s

/-- BCD_ENC (R66): `R[7:0] <- encode_bcd(v)`. -/
def execBcdEnc (v : Int) (s : State) : Answer := finishOrFault ((encodeBcd v).map zext72) s

end Sys2Proof.Machine
end

