-- ==== Sys2Proof/Machine/RtcModel.lean ====
section
/-! DEFINITION. Unit U2, the RTC register model: RTC_DEC and RTC_ENC. 41_rtc_register_model.md R71 to R86. -/

namespace Sys2Proof.Machine

/-- The hour of an hours register: bit 6 selects 12-hour mode, bit 5 is then the PM flag (R73). The sum is not reduced
and 12 is not special. -/
def decodeHour (h : Byte) : Int :=
  if h.getLsbD 6 then
    if h.getLsbD 5 then decodeBcd (h &&& 0x1F) + 12 else decodeBcd (h &&& 0x1F)
  else decodeBcd h

/-- The year of a month register and a year register: the century bit selects the epoch base (R77). -/
def decodeYear (monthCentury year : Byte) : Int :=
  decodeBcd year + if monthCentury.getLsbD 7 then Config.epochSet else Config.epochClear

/-- The document's `decode(block) -> CalendarTime` (R71 to R77). -/
def rtcDecode (b : RegBlock) : CalendarTime where
  second  := decodeBcd b.seconds
  minute  := decodeBcd b.minutes
  hour    := decodeHour b.hours
  weekday := b.dayOfWeek.toNat - 1
  day     := decodeBcd b.date
  month   := decodeBcd (b.monthCentury &&& 0x1F)
  year    := decodeYear b.monthCentury b.year

/-- RTC_DEC (R78): the `CT72` of the decoded time. -/
def execRtcDec (block : RegBlock) (s : State) : Answer := finish (packTime (rtcDecode block)) s

/-- The day-of-week register: `weekday + 1` wherever that is a byte, RangeError elsewhere (R83). -/
def encodeWeekday (weekday : Int) : Except BlockError Byte :=
  if weekday + 1 < 0 ∨ weekday + 1 > 255 then .error .rangeError else .ok (BitVec.ofInt 8 (weekday + 1))

/-- The century bit of a year (R85). -/
def centuryBit (year : Int) : Bool := decide (year ≥ Config.epochSet)

/-- The month register: the BCD month with the century bit or-ed in (R85). -/
def encodeMonth (year month : Int) : Except BlockError Byte := do
  let m ← encodeBcd month
  pure (m ||| (BitVec.ofBool (centuryBit year)).setWidth 8 <<< 7)

/-- The year register: the year less its epoch base (R85). -/
def encodeYear (year : Int) : Except BlockError Byte :=
  encodeBcd (year - if centuryBit year then Config.epochSet else Config.epochClear)

/-- The document's `encode(time) -> RtcRegisterBlock` (R79 to R85). If any register cannot be encoded there is no block,
and the one cause does not say which (R81). -/
def rtcEncode (t : CalendarTime) : Except BlockError RegBlock := do
  let seconds ← encodeBcd t.second
  let minutes ← encodeBcd t.minute
  let hours ← encodeBcd t.hour
  let dayOfWeek ← encodeWeekday t.weekday
  let date ← encodeBcd t.day
  let monthCentury ← encodeMonth t.year t.month
  let year ← encodeYear t.year
  pure { seconds, minutes, hours, dayOfWeek, date, monthCentury, year }

/-- RTC_ENC (R86): the `BLK56` of the encoded block, 0 above it. -/
def execRtcEnc (t : CalendarTime) (s : State) : Answer :=
  finishOrFault ((rtcEncode t).map fun b => zext72 (packBlock b)) s

end Sys2Proof.Machine
end

