-- ==== Sys2Proof/Machine/TempMonitor.lean ====
section
/-! DEFINITION. Unit U3, the temperature monitor: TEMP_POLL and TEMP_QUERY. 42_temperature_monitor.md R87 to R93. -/

namespace Sys2Proof.Machine

/-- The transition on a reading: `Normal -> Low` strictly below the low threshold, `Low -> Normal` strictly above the high
one (R88, R89). -/
def nextIsLow (th : Thresholds) (isLow : Bool) (r : Int) : Bool :=
  if isLow = false ∧ r < th.low then true
  else if isLow = true ∧ r > th.high then false
  else isLow

/-- `temp_step(is_low, reading) -> (is_low', report)`: with no reading the state is kept and the report is 0 (R92), with
one the report is the state after the transition (R91). -/
def tempStep (th : Thresholds) (isLow : Bool) (reading : Option Int) : Bool × Bool :=
  match reading with
  | none   => (isLow, false)
  | some r => (nextIsLow th isLow r, nextIsLow th isLow r)

/-- TEMP_POLL for any thresholds (R4, R90). -/
def tempPollWith (th : Thresholds) (reading : Option Int) (s : State) : Answer :=
  let (n, report) := tempStep th s.isLow reading
  finish (bitResult report) (s.setIsLow n)

/-- TEMP_POLL of this instance (R90). -/
def execTempPoll (reading : Option Int) (s : State) : Answer := tempPollWith Config.thresholds reading s

/-- TEMP_QUERY (R93): `R[0] <- S.is_low`. -/
def execTempQuery (s : State) : Answer := finish (bitResult s.isLow) s

end Sys2Proof.Machine
end

