-- ==== Sys2Proof/Machine/TimeWindow.lean ====
section
/-! DEFINITION. Unit U4, the time-window checker and the relay decision: WINDOW and RELAY. 43_time_window_relay.md R98 to
R103. -/

namespace Sys2Proof.Machine

/-- `hour < 7 or hour >= 22` (R99). -/
def isNight (hour : Int) : Bool := decide (hour < 7) || decide (hour ≥ 22)

/-- `month <= 5 or month >= 9` (R100). -/
def isHeatingSeason (month : Int) : Bool := decide (month ≤ 5) || decide (month ≥ 9)

/-- `is_night and is_heating_season`, of the two fields of a local time that count (R98). -/
def inActiveWindow (hour month : Int) : Bool := isNight hour && isHeatingSeason month

/-- `time_window_active and not temperature_is_low` (R102). -/
def relayDecision (timeWindowActive temperatureIsLow : Bool) : Bool := timeWindowActive && !temperatureIsLow

/-- WINDOW (R101). -/
def execWindow (hour month : Int) (s : State) : Answer := finish (bitResult (inActiveWindow hour month)) s

/-- RELAY (R103). The level is not kept and `S.is_low` is not read. -/
def execRelay (timeWindowActive temperatureIsLow : Bool) (s : State) : Answer :=
  finish (bitResult (relayDecision timeWindowActive temperatureIsLow)) s

end Sys2Proof.Machine
end

