-- ==== Sys2Proof/Machine/Dispatch.lean ====
section
/-! DEFINITION. exec: one arm per constructor of Instr, each one direct call of that instruction's meaning. -/

namespace Sys2Proof.Machine

-- exec does not test S.fault: step refuses before it decodes (R114; log entry 9).
def exec (i : Instr) (s : State) : Host.Outcome State Fault Refusal :=
  match i with
  | .bcdDec b => Sys2Proof.Machine.execBcdDec b s
  | .bcdEnc v => Sys2Proof.Machine.execBcdEnc v s
  | .rtcDec block => Sys2Proof.Machine.execRtcDec block s
  | .rtcEnc t => Sys2Proof.Machine.execRtcEnc t s
  | .tempPoll reading => Sys2Proof.Machine.execTempPoll reading s
  | .tempQuery => Sys2Proof.Machine.execTempQuery s
  | .window hour month => Sys2Proof.Machine.execWindow hour month s
  | .relay w l => Sys2Proof.Machine.execRelay w l s

end Sys2Proof.Machine
end

