-- ==== Sys2Proof/Machine/Step.lean ====
section
/-! DEFINITION. One step of the block: the next host input, run by exec (60_exceptions.md R115). -/

namespace Sys2Proof.Machine

/-- One step: a command (R115), a reset (R128), a command overtaken by a reset (R129), or nothing presented. -/
def step (s : State) : Host.Outcome State Fault Refusal := runNext exec s

/-- `s` with the instruction whose bits are `w` at the head of what the host presents. The block fetches nothing (R23):
the host loads its program from outside, one command a step (log entry 1). A faulted block refuses it (R114). -/
def State.withFetchWord (s : State) (nbits w : Nat) : State :=
  s.present (BitVec.ofNat 80 (w % 2 ^ nbits))

end Sys2Proof.Machine
end

