-- ==== Sys2Proof/Machine/Surroundings.lean ====
section
/-! DEFINITION. What the spec says of the host and of the RTC chip around the block (20_memory.md R31 to R37;
60_exceptions.md R110, R111; 70_reset_and_hazards.md R131 to R137). Outside the block (00_scope.md R3): step uses nothing
of this file. Log entries 12 and 13. -/

namespace Sys2Proof.Machine

/-- Register `k` of a block: index `k` is RTC register address `k` (R16, R39). -/
def RegBlock.get (b : RegBlock) (k : Fin 7) : Byte :=
  match k with
  | 0 => b.seconds
  | 1 => b.minutes
  | 2 => b.hours
  | 3 => b.dayOfWeek
  | 4 => b.date
  | 5 => b.monthCentury
  | 6 => b.year

/-- The block with register `k` written. -/
def RegBlock.set (b : RegBlock) (k : Fin 7) (v : Byte) : RegBlock :=
  match k with
  | 0 => { b with seconds := v }
  | 1 => { b with minutes := v }
  | 2 => { b with hours := v }
  | 3 => { b with dayOfWeek := v }
  | 4 => { b with date := v }
  | 5 => { b with monthCentury := v }
  | 6 => { b with year := v }

/-- The host's two error kinds (R108, R110, R111). Neither is a fault of the block. -/
inductive HostError where
  | hardwareIO
  | sensorAbsent
  deriving DecidableEq, Repr

/-- What happens to the RTC chip's registers between two reads of them: the host writes one register, in a transaction of
its own (R34); such a write fails on the bus (R37, R110); or the chip counts (R37, R136). The spec says nothing of what a
failed write or the counting leaves in the registers, so either carries the content it leaves (log entry 12). -/
inductive ChipEvent where
  | write (k : Fin 7) (v : Byte)
  | writeFailed (k : Fin 7) (v : Byte) (left : RegBlock)
  | count (regs : RegBlock)
  deriving DecidableEq, Repr

/-- The chip's registers after one event. -/
def chipAfter (regs : RegBlock) (e : ChipEvent) : RegBlock :=
  match e with
  | .write k v            => RegBlock.set regs k v
  | .writeFailed _ _ left => left
  | .count r              => r

/-- The chip's registers after a list of events, oldest first. -/
def chipRun (regs : RegBlock) (es : List ChipEvent) : RegBlock := es.foldl chipAfter regs

/-- An event of the chip itself, which goes on when the host is gone. -/
def ChipEvent.isCount : ChipEvent → Bool
  | .count _ => true
  | _        => false

/-- A sequence of the host's register writes, with the chip counting in between: a failed write is not retried and ends
the host, so no later write of the sequence happens (R37, R110). The registers at the end, and how the sequence ended. -/
def hostWrites (regs : RegBlock) (es : List ChipEvent) : RegBlock × Except HostError Unit :=
  match es with
  | [] => (regs, .ok ())
  | .write k v :: es => hostWrites (RegBlock.set regs k v) es
  | .writeFailed _ _ left :: es => (chipRun left (es.filter ChipEvent.isCount), .error .hardwareIO)
  | .count r :: es => hostWrites r es

/-- The single-register writes that store `block`, in the order the host chooses (R34; any order is allowed). -/
def writesInOrder (block : RegBlock) (order : List (Fin 7)) : List ChipEvent :=
  order.map fun k => .write k (RegBlock.get block k)

/-- An order in which the host may write the seven registers: each once (R34, 93_implementation_defined.md U8). -/
abbrev isWriteOrder (order : List (Fin 7)) : Prop := order.Perm (List.finRange 7)

/-- What the host presents for a sensor access: a temperature; no reading when the scan finds no device (R111); nothing
when the bus fails, which is fatal to the host (R110). A temperature outside the 32-bit format cannot be presented, and
what the host sends instead is its choice (93_implementation_defined.md U10): DESIGN CHOICE, log entry 13, that choice is
the argument `instead`, no reading or any 32-bit reading. -/
def readingOf (instead : Option (BitVec 32)) (sensor : Except HostError Int) : Except HostError (Option Int) :=
  match sensor with
  | .ok r                => if fitsS 31 r then .ok (some r) else .ok (instead.map BitVec.toInt)
  | .error .sensorAbsent => .ok none
  | .error .hardwareIO   => .error .hardwareIO

/-- The host presents the command `i`, and the block steps: the state after, and the result if the status is `OK`. An
instruction whose operands fit no command word cannot be presented (93_implementation_defined.md U10): DESIGN CHOICE, log
entry 13, nothing is presented then and the block is as it was, so no operand is ever wrapped. -/
def issue (i : Instr) (s : State) : State × Option Result :=
  if i.wf then
    match step (s.present (encode i)) with
    | .next t =>
      match t.responses with
      | .ok r :: _ => (t, some r)
      | _          => (t, none)
    | .fault _   => (s, none)
    | .refused _ => (s, none)
  else (s, none)

/-- The states of the document's control loop and their order; no state is terminal. The spec does not map them onto the
steps of a cycle (R132). -/
inductive LoopPhase where
  | idle | polling | deciding | actuating | sleeping
  deriving DecidableEq, Repr

/-- `Idle -> Polling -> Deciding -> Actuating -> Sleeping -> Polling` (R132). -/
def LoopPhase.next : LoopPhase → LoopPhase
  | .idle      => .polling
  | .polling   => .deciding
  | .deciding  => .actuating
  | .actuating => .sleeping
  | .sleeping  => .polling

/-- What the host's own work supplies to one cycle: the 7-byte read of the RTC (R33), `none` when the bus fails (R110);
the sensor access; what is sent for a temperature that does not fit (log entry 13); and the Civil-Time-Zone Resolver, which
the spec leaves out (R3). -/
structure CycleWork where
  rtc       : Option RegBlock
  sensor    : Except HostError Int
  instead   : Option (BitVec 32)
  localTime : CalendarTime → CalendarTime

/-- Why the host stopped: an error of its own (R110), or a command that got no `OK` (DESIGN CHOICE, log entry 12) or could
not be presented (DESIGN CHOICE, log entry 13). There is no retry (R37, R139). -/
inductive HostStop where
  | error (e : HostError)
  | notOk
  deriving DecidableEq, Repr

/-- How a cycle ends: the block, the host's clock once set, the level written to the relay line, if one was, and why the
host stopped, if it did. A cycle that stops writes no level; of the line the spec then says nothing
(93_implementation_defined.md U9). -/
structure CycleEnd where
  block : State
  clock : Option CalendarTime
  relay : Option Bool
  stop  : Option HostStop
  deriving DecidableEq, Repr

/-- The end of a cycle that stops. -/
def stopped (block : State) (clock : Option CalendarTime) (why : HostStop) : CycleEnd :=
  { block := block, clock := clock, relay := none, stop := some why }

/-- Steps 3 to 6 of the cycle, from the host's clock and the report of the poll (R132, R105). -/
def decideRelay (clock civil : CalendarTime) (report : Bool) (s : State) : CycleEnd :=
  match issue (.window civil.hour civil.month) s with
  | (s, none)   => stopped s (some clock) .notOk
  | (s, some w) =>
    match issue (.relay (w.getLsbD 0) report) s with
    | (s, none)   => stopped s (some clock) .notOk
    | (s, some l) => { block := s, clock := some clock, relay := some (l.getLsbD 0), stop := none }

/-- The RTC read, RTC_DEC and the setting of the host's clock (R33, R131; step 1 of R132), with no level written. -/
def syncClock (rtc : Option RegBlock) (s : State) : CycleEnd :=
  match rtc with
  | none      => stopped s none (.error .hardwareIO)
  | some regs =>
    match issue (.rtcDec regs) s with
    | (s, none)   => stopped s none .notOk
    | (s, some t) => { block := s, clock := some (unpackTime t), relay := none, stop := none }

/-- Steps 2 to 6 of a cycle whose clock is set: sensor and TEMP_POLL, local time and WINDOW, RELAY on the report of the
poll (R132). -/
def pollAndDecide (work : CycleWork) (clock : CalendarTime) (s : State) : CycleEnd :=
  match readingOf work.instead work.sensor with
  | .error e    => stopped s (some clock) (.error e)
  | .ok reading =>
    match issue (.tempPoll reading) s with
    | (s, none)   => stopped s (some clock) .notOk
    | (s, some r) => decideRelay clock (work.localTime clock) (r.getLsbD 0) s

/-- One cycle of the host's loop in the order of R132: the clock is set before the decision (R133). What is sent for a
temperature outside the format is the host's choice `work.instead` (U10; DESIGN CHOICE, log entry 13). -/
def controlCycle (work : CycleWork) (s : State) : CycleEnd :=
  match (syncClock work.rtc s).clock with
  | none       => syncClock work.rtc s
  | some clock => pollAndDecide work clock (syncClock work.rtc s).block

/-- Cycle after cycle (R132): the first one that stops ends the host's process, and no further command is issued (R110). -/
def controlLoop (works : List CycleWork) (e : CycleEnd) : CycleEnd :=
  match works with
  | [] => e
  | work :: works =>
    match e.stop with
    | some _ => e
    | none   => controlLoop works (controlCycle work e.block)

/-- The host's process starting: the block is reset (R130), then one clock sync (R131). -/
def boot (rtc : Option RegBlock) (s : State) : CycleEnd := syncClock rtc s.clear

/-- One step of setting the RTC: the write of a register, its failure and what that leaves, or the chip's counting. -/
inductive WriteStep where
  | write (k : Fin 7)
  | fails (k : Fin 7) (left : RegBlock)
  | count (regs : RegBlock)
  deriving DecidableEq, Repr

/-- The event at the chip when the host writes registers of `block`. -/
def WriteStep.event (block : RegBlock) : WriteStep → ChipEvent
  | .write k      => .write k (RegBlock.get block k)
  | .fails k left => .writeFailed k (RegBlock.get block k) left
  | .count regs   => .count regs

/-- How setting the RTC ends: the block, the chip's registers, and why the host stopped, if it did. -/
structure SetEnd where
  block : State
  rtc   : RegBlock
  stop  : Option HostStop
  deriving DecidableEq, Repr

/-- Setting the RTC to `t`: RTC_ENC, then the registers of its result one by one (R34, R86). -/
def setRtc (t : CalendarTime) (plan : List WriteStep) (regs : RegBlock) (s : State) : SetEnd :=
  match issue (.rtcEnc t) s with
  | (s, none)   => { block := s, rtc := regs, stop := some .notOk }
  | (s, some r) =>
    match hostWrites regs (plan.map (WriteStep.event (unpackBlock r))) with
    | (regs, .ok ())   => { block := s, rtc := regs, stop := none }
    | (regs, .error e) => { block := s, rtc := regs, stop := some (.error e) }

end Sys2Proof.Machine
end

