-- ==== Sys2Proof/Safety.lean ====
section
/-! DEFINITION. What a good state of the block is, in the terms the claims use. -/

namespace Sys2Proof.Machine

/-- The invariant of 10_state.md R15: `S.cause = 0x00` if and only if `S.fault = 0`. -/
def State.causeMatchesFault (s : State) : Prop := s.cause = .none ↔ s.fault = false

/-- 60_exceptions.md R117 as a property of one state: in a faulted state the responses since the fault are refusals, and
the one before them reports the recorded cause, so the cause names the first fault since the last reset. -/
def State.causeNamesFirstFault (s : State) : Prop :=
  s.fault = true → ∃ (n : Nat) (e : BlockError) (older : List Response),
    s.responses = List.replicate n .refused ++ e.response :: older ∧ s.cause = e.cause

/-- A good end of a run is a state that is not faulted (70_reset_and_hazards.md R144). -/
def State.goodEnd (s : State) : Prop := s.fault = false

/-- A valid BCD byte: both nibbles at most 9 (00_scope.md section 5, R63). -/
abbrev isBcd (b : Byte) : Prop := b.toNat / 16 ≤ 9 ∧ b.toNat % 16 ≤ 9

/-- The times RTC_ENC can write: those for which no register raises RangeError (60_exceptions.md R109, R83, R85). -/
abbrev encodable (t : CalendarTime) : Prop :=
  (1900 ≤ t.year ∧ t.year ≤ 2099) ∧ (0 ≤ t.month ∧ t.month ≤ 99) ∧ (0 ≤ t.day ∧ t.day ≤ 99) ∧
    (0 ≤ t.hour ∧ t.hour ≤ 99) ∧ (0 ≤ t.minute ∧ t.minute ≤ 99) ∧ (0 ≤ t.second ∧ t.second ≤ 99) ∧
    (-1 ≤ t.weekday ∧ t.weekday ≤ 254)

end Sys2Proof.Machine
end

