-- ==== Sys2Proof/Certificates/Slice0/Obligations.lean ====
section
/-! DEFINITION. The statements for the provers. Each docstring names the rules it formalises. A response is recorded at
the head of `State.responses` and a command is taken from the head of `State.inputs`: that form of the two ports is the
model's (log entries 1 and 2), what is delivered and what is done is the spec's. -/

open Sys2Proof Sys2Proof.Machine

/-! ## Reset and the step -/

/-- R28: the reset value of every element of `S`, and the two constants. -/
def Obligations.ResetValueOfEveryElement : Prop :=
  State.reset.isLow = false ∧ State.reset.fault = false ∧ State.reset.cause.code = 0x00 ∧
    State.reset.isLowO = false ∧ State.reset.faultO = false ∧ State.reset.causeO = 0x00 ∧
    Config.thresholds.high = -1500 ∧ Config.thresholds.low = -3000

/-- R128: the reset input puts all of `S` to its reset values, from any state, and the block takes the next command as
soon as it ends. -/
def Obligations.ResetInputClearsAllOfS : Prop :=
  ∀ (s : State) (rest : List HostInput), s.inputs = .reset :: rest →
    ∃ t, step s = .next t ∧ t.isLow = false ∧ t.fault = false ∧ t.cause = .none ∧
      ∀ (w : Command) (i : Instr) (rest' : List HostInput), rest = .command w :: rest' → decode w = .ok i →
        step t = exec i { t with inputs := rest' }

/-- R115, third test: when the block is not faulted and the command at the port decodes, the step is exec of the decoded
instruction, with the command taken off the port and nothing else around it. -/
def Obligations.StepRunsTheDecodedCommand : Prop :=
  ∀ (s : State) (w : Command) (rest : List HostInput) (i : Instr),
    s.inputs = .command w :: rest → s.fault = false → decode w = .ok i →
      step s = exec i { s with inputs := rest }

/-- R114: a faulted block refuses every command, legal or not, and `S` is unchanged. -/
def Obligations.FaultedBlockRefusesEveryCommand : Prop :=
  ∀ (s : State) (w : Command) (rest : List HostInput), s.inputs = .command w :: rest → s.fault = true →
    step s = .next { s with inputs := rest, responses := .refused :: s.responses } ∧
      Response.status .refused = 0x03

/-- R57 and R113: opcodes `0x00` and `0x09` to `0xFF` fault with cause ILLEGAL_COMMAND whatever the payload, and no other
opcode does not decode. -/
def Obligations.ReservedOpcodesFaultIllegalCommand : Prop :=
  (∀ (w : Command), ((w.extractLsb' 72 8).toNat = 0 ∨ 9 ≤ (w.extractLsb' 72 8).toNat) ↔ ∀ i, decode w ≠ .ok i) ∧
  (∀ (s : State) (w : Command) (rest : List HostInput), s.inputs = .command w :: rest → s.fault = false →
    ((w.extractLsb' 72 8).toNat = 0 ∨ 9 ≤ (w.extractLsb' 72 8).toNat) →
      step s = .next { s with inputs := rest, fault := true, cause := .illegalCommand,
                              responses := .illegalCommand :: s.responses })

/-- R11 and R29: the step of a command answers a next state with exactly one more response, and it is OK (then only a
TEMP_POLL changes `S`, and of it only `is_low`), a fault, or REFUSED (then nothing of `S` changes). R24, R108, R109: RangeError
comes only from BCD_ENC and RTC_ENC, on operands they cannot encode, and IllegalCommand only from a word that decodes to
nothing. -/
def Obligations.EveryCommandHasOneOfThreeOutcomes : Prop :=
  ∀ (s : State) (w : Command) (rest : List HostInput), s.inputs = .command w :: rest →
    ∃ t, step s = .next t ∧ t.inputs = rest ∧ t.freeCount = s.freeCount ∧
      ((s.fault = false ∧ t.fault = false ∧ t.cause = s.cause ∧ (∃ i, decode w = .ok i) ∧ (∃ r, t.responses = .ok r :: s.responses) ∧
          (t.isLow ≠ s.isLow → ∃ x, decode w = .ok (.tempPoll (some x)))) ∨
        (s.fault = false ∧ t.fault = true ∧ t.isLow = s.isLow ∧
          ((t.cause = .rangeError ∧ t.responses = .rangeError :: s.responses ∧
              ((∃ v, decode w = .ok (.bcdEnc v) ∧ (v < 0 ∨ 99 < v)) ∨
                ∃ x, decode w = .ok (.rtcEnc x) ∧ ¬ encodable x)) ∨
            (t.cause = .illegalCommand ∧ t.responses = .illegalCommand :: s.responses ∧ ∀ i, decode w ≠ .ok i))) ∨
        (s.fault = true ∧ t.fault = true ∧ t.cause = s.cause ∧ t.isLow = s.isLow ∧
          t.responses = .refused :: s.responses))

/-- R112: whenever a step sets `S.fault`, it sets the cause, reports it as the status, and does nothing else. -/
def Obligations.FaultEntryChangesNothingElse : Prop :=
  ∀ (s t : State), step s = .next t → s.fault = false → t.fault = true →
    ∃ r, t = { s with inputs := s.inputs.tail, fault := true, cause := t.cause, responses := r :: s.responses } ∧
      ((t.cause = .rangeError ∧ r = .rangeError) ∨ (t.cause = .illegalCommand ∧ r = .illegalCommand)) ∧
      r.status = t.causeO

/-- R116 and R129: the only step that clears `S.fault` is a reset, and it puts `is_low` back to 0. -/
def Obligations.OnlyResetClearsTheFault : Prop :=
  ∀ (s t : State), step s = .next t → s.fault = true → t.fault = false →
    t.isLow = false ∧ t.cause = .none ∧
      ∃ rest, s.inputs = .reset :: rest ∨ ∃ w, s.inputs = .overtaken w :: rest

/-- R117: from a faulted state no step but a reset changes the recorded cause, or anything else of `S`. -/
def Obligations.FaultsDoNotNest : Prop :=
  ∀ (s t : State), step s = .next t → s.fault = true →
    (∀ rest, s.inputs ≠ .reset :: rest) → (∀ w rest, s.inputs ≠ .overtaken w :: rest) →
      t.isLow = s.isLow ∧ t.fault = true ∧ t.cause = s.cause

/-- R129, with log entry 5: a reset that arrives while a command is outstanding wins; the command's response is either
delivered, as it would have been, or not. -/
def Obligations.ResetWinsOverAnOutstandingCommand : Prop :=
  ∀ (s : State) (w : Command) (rest : List HostInput), s.inputs = .overtaken w :: rest →
    ∃ t u, step s = .next t ∧ step { s with inputs := .command w :: rest } = .next u ∧
      t.isLow = false ∧ t.fault = false ∧ t.cause = .none ∧ t.inputs = rest ∧
      (t.responses = s.responses ∨ t.responses = u.responses)

/-- The model's own choices of log entries 1, 2, 3, 5 and 7: every step answers a next state; with nothing presented it is
the same state; a reset takes itself off the inputs and leaves the recorded responses and the counter alone. -/
def Obligations.EveryStepAnswersANextState : Prop :=
  (∀ s : State, ∃ t, step s = .next t) ∧ (∀ s : State, s.inputs = [] → step s = .next s) ∧
    ∀ (s : State) (rest : List HostInput), s.inputs = .reset :: rest →
      step s = .next { s with inputs := rest, isLow := false, fault := false, cause := .none }

/-- R46, R47: the status byte of each response; an OK response fixes all 80 bits of the word, any other fixes the status
alone. -/
def Obligations.ResponseWordsFixTheResultOnlyWhenOk : Prop :=
  (∀ (v : Result) (w : BitVec 80), Response.shows (.ok v) w = true ↔ w = (0x00 : Byte) ++ v) ∧
    (∀ w : BitVec 80, Response.shows .rangeError w = true ↔ w.extractLsb' 72 8 = 0x01) ∧
    (∀ w : BitVec 80, Response.shows .illegalCommand w = true ↔ w.extractLsb' 72 8 = 0x02) ∧
    (∀ w : BitVec 80, Response.shows .refused w = true ↔ w.extractLsb' 72 8 = 0x03)

/-! ## Invariants -/

/-- R15 and R117 at reset. -/
def Obligations.ResetStateMeetsTheInvariants : Prop :=
  State.reset.causeMatchesFault ∧ State.reset.causeNamesFirstFault

/-- R15: every step keeps "`S.cause = 0x00` if and only if `S.fault = 0`". -/
def Obligations.StepKeepsCauseMatchesFault : Prop :=
  ∀ s t : State, s.causeMatchesFault → step s = .next t → t.causeMatchesFault

/-- R117: every step keeps "the recorded cause is that of the first fault since the last reset, and every response since
is a refusal". -/
def Obligations.StepKeepsCauseNamesFirstFault : Prop :=
  ∀ s t : State, s.causeNamesFirstFault → step s = .next t → t.causeNamesFirstFault

/-! ## What a step may depend on -/

/-- R24, R103, R105: no command but TEMP_POLL and TEMP_QUERY reads `is_low`: with the bit replaced, the step answers the
same with the bit replaced. -/
def Obligations.OnlyPollAndQueryReadIsLow : Prop :=
  ∀ (s t : State) (w : Command) (rest : List HostInput) (l : Bool), s.inputs = .command w :: rest →
    w.extractLsb' 72 8 ≠ 0x05 → w.extractLsb' 72 8 ≠ 0x06 → step s = .next t →
      step { s with isLow := l } = .next { t with isLow := l }

/-- R26, R41: the response to a command and the `S` after it depend on the command and the `S` before it alone. -/
def Obligations.OutcomeDependsOnSAndTheCommand : Prop :=
  ∀ (s₁ s₂ : State) (w : Command) (rest₁ rest₂ : List HostInput),
    s₁.inputs = .command w :: rest₁ → s₂.inputs = .command w :: rest₂ →
    s₁.isLow = s₂.isLow → s₁.fault = s₂.fault → s₁.cause = s₂.cause →
      ∃ t₁ t₂ r, step s₁ = .next t₁ ∧ step s₂ = .next t₂ ∧
        t₁.responses = r :: s₁.responses ∧ t₂.responses = r :: s₂.responses ∧
        t₁.isLow = t₂.isLow ∧ t₁.fault = t₂.fault ∧ t₁.cause = t₂.cause

/-! ## Encoding -/

/-- Every well-formed instruction comes back from its word, with every operand (R45 to R56, R62). -/
def Obligations.DecodeOfEncodeIsTheInstruction : Prop :=
  ∀ i : Instr, i.wf = true → decode (encode i) = .ok i

/-- What decodes is well-formed (R49 to R56, R62). -/
def Obligations.DecodedInstructionsAreWellFormed : Prop :=
  ∀ (w : Command) (i : Instr), decode w = .ok i → i.wf = true

/-- R58 as an equation: encoding what a word decodes to gives the word back with its ignored bits 0. -/
def Obligations.ReencodingClearsExactlyTheIgnoredBits : Prop :=
  ∀ (w : Command) (i : Instr), decode w = .ok i →
    encode i = w &&& ((0xFF : Byte) ++ usedBits i.opcode (payloadOf w))

/-- R58: two commands that differ only in ignored bits have the same outcome. -/
def Obligations.IgnoredBitsHaveNoEffect : Prop :=
  ∀ (op : Opcode) (w w' : Command), Opcode.ofCode (opcodeOf w) = some op → opcodeOf w' = opcodeOf w →
    payloadOf w' &&& usedBits op (payloadOf w) = payloadOf w &&& usedBits op (payloadOf w) →
      ∀ (s : State) (rest : List HostInput),
        step { s with inputs := .command w' :: rest } = step { s with inputs := .command w :: rest }

/-- R48: the opcode alone selects the operation, by mask and match, and the map of codes. -/
def Obligations.OpcodeMapSelectsTheOperation : Prop :=
  (∀ (w : Command) (op : Opcode), (∃ i, decode w = .ok i ∧ i.opcode = op) ↔ w &&& Opcode.mask = op.pattern) ∧
    [Opcode.bcdDec, .bcdEnc, .rtcDec, .rtcEnc, .tempPoll, .tempQuery, .window, .relay].map Opcode.pattern =
      [0x01000000000000000000, 0x02000000000000000000, 0x03000000000000000000, 0x04000000000000000000,
       0x05000000000000000000, 0x06000000000000000000, 0x07000000000000000000, 0x08000000000000000000]

/-- The example words of R60. -/
def Obligations.WrittenOutWordsDecode : Prop :=
  decode 0x01000000000000000059 = .ok (.bcdDec 0x59) ∧
    decode 0x0200000000000000003B = .ok (.bcdEnc 59) ∧
    decode 0x03000024811503123456 = .ok (.rtcDec ⟨0x56, 0x34, 0x12, 0x03, 0x15, 0x81, 0x24⟩) ∧
    decode 0x04000238220C0F0107E8 = .ok (.rtcEnc ⟨2024, 1, 15, 12, 34, 56, 2⟩) ∧
    decode 0x050000000001FFFFF254 = .ok (.tempPoll (some (-3500))) ∧
    decode 0x06000000000000000000 = .ok .tempQuery ∧
    decode 0x070000001E170F0107E8 = .ok (.window 23 1) ∧
    decode 0x08000000000000000001 = .ok (.relay true false)

/-! ## Unit U1, the BCD codec -/

/-- R63: the value of every byte, its range, and the byte that reaches the maximum. -/
def Obligations.DecodeBcdIsTotalWithItsRange : Prop :=
  (∀ b : Byte, decodeBcd b = (b.toNat / 16 : Nat) * 10 + (b.toNat % 16 : Nat) ∧
      0 ≤ decodeBcd b ∧ decodeBcd b ≤ 165 ∧ (isBcd b → decodeBcd b ≤ 99)) ∧
    decodeBcd 0xFF = 165 ∧ decodeBcd 0x0A = 10 ∧ decodeBcd 0x10 = 10

/-- R64: the byte of every value in 0 to 99, and RangeError for every other integer. -/
def Obligations.EncodeBcdOrRangeError : Prop :=
  ∀ v : Int,
    (0 ≤ v ∧ v ≤ 99 → ∃ b : Byte, encodeBcd v = .ok b ∧ (b.toNat : Int) = 16 * (v / 10) + v % 10 ∧
      ((b.extractLsb' 4 4).toNat : Int) = v / 10 ∧ ((b.extractLsb' 0 4).toNat : Int) = v % 10 ∧
      isBcd b ∧ b.toNat ≤ 0x99) ∧
    (v < 0 ∨ 99 < v → encodeBcd v = .error .rangeError)

/-- R67: the round trip of every value in 0 to 99. -/
def Obligations.BcdRoundTripOfValues : Prop :=
  ∀ v : Int, 0 ≤ v → v ≤ 99 → ∃ b, encodeBcd v = .ok b ∧ decodeBcd b = v

/-- R68: the other direction holds on valid BCD bytes and on no other. -/
def Obligations.BcdRoundTripOfValidBytesOnly : Prop :=
  (∀ b : Byte, encodeBcd (decodeBcd b) = .ok b ↔ isBcd b) ∧
    decodeBcd 0x1A = 20 ∧ encodeBcd 20 = .ok 0x20 ∧ decodeBcd 0xFF = 165 ∧ encodeBcd 165 = .error .rangeError

/-- R49 and R65: BCD_DEC completes for every byte and every state. -/
def Obligations.BcdDecResult : Prop :=
  (∀ w : Command, w.extractLsb' 72 8 = 0x01 → decode w = .ok (.bcdDec (w.extractLsb' 0 8))) ∧
  ∀ (b : Byte) (s : State),
    exec (.bcdDec b) s =
      .next { s with responses := .ok (BitVec.ofNat 72 (b.toNat / 16 * 10 + b.toNat % 16)) :: s.responses }

/-- R50 and R66: BCD_ENC completes exactly for 0 to 99 and faults with RANGE_ERROR elsewhere. -/
def Obligations.BcdEncResult : Prop :=
  (∀ w : Command, w.extractLsb' 72 8 = 0x02 → decode w = .ok (.bcdEnc (w.extractLsb' 0 16).toInt)) ∧
  ∀ (v : Int) (s : State),
    (0 ≤ v ∧ v ≤ 99 → exec (.bcdEnc v) s =
      .next { s with responses := .ok (BitVec.ofInt 72 (16 * (v / 10) + v % 10)) :: s.responses }) ∧
    (v < 0 ∨ 99 < v → exec (.bcdEnc v) s =
      .next { s with fault := true, cause := .rangeError, responses := .rangeError :: s.responses })

/-! ## Unit U2, the RTC register model -/

/-- R71, R72, R74 to R77: six fields of the decoded time and their ranges. -/
def Obligations.RtcDecodeFieldsOtherThanHour : Prop :=
  ∀ b : RegBlock,
    let bcd : Byte → Int := fun x => (x.toNat / 16 : Nat) * 10 + (x.toNat % 16 : Nat)
    let t := rtcDecode b
    t.second = bcd b.seconds ∧ t.minute = bcd b.minutes ∧ t.day = bcd b.date ∧
      t.weekday = b.dayOfWeek.toNat - 1 ∧
      t.month = (b.monthCentury.toNat % 32 / 16 : Nat) * 10 + (b.monthCentury.toNat % 16 : Nat) ∧
      t.year = bcd b.year + (if 128 ≤ b.monthCentury.toNat then 2000 else 1900) ∧
      (0 ≤ t.second ∧ t.second ≤ 165) ∧ (0 ≤ t.minute ∧ t.minute ≤ 165) ∧ (0 ≤ t.day ∧ t.day ≤ 165) ∧
      (-1 ≤ t.weekday ∧ t.weekday ≤ 254) ∧ (0 ≤ t.month ∧ t.month ≤ 25) ∧
      (b.monthCentury.toNat < 128 → 1900 ≤ t.year ∧ t.year ≤ 2065) ∧
      (128 ≤ b.monthCentury.toNat → 2000 ≤ t.year ∧ t.year ≤ 2165) ∧
      (isBcd b.year → (b.monthCentury.toNat < 128 → t.year ≤ 1999) ∧ t.year ≤ 2099) ∧
      decodeYear 0x00 0xA0 = 2000 ∧ decodeYear 0x80 0x00 = 2000

/-- R73: the hour by mode and PM flag, its range, and the rule's table. -/
def Obligations.RtcDecodeHourByMode : Prop :=
  (∀ b : RegBlock,
    let h := b.hours.toNat
    let low : Int := (h % 32 / 16 : Nat) * 10 + (h % 16 : Nat)
    (b.hours.getLsbD 6 = true → b.hours.getLsbD 5 = true → (rtcDecode b).hour = low + 12) ∧
    (b.hours.getLsbD 6 = true → b.hours.getLsbD 5 = false → (rtcDecode b).hour = low) ∧
    (b.hours.getLsbD 6 = false → (rtcDecode b).hour = (h / 16 : Nat) * 10 + (h % 16 : Nat)) ∧
    0 ≤ (rtcDecode b).hour ∧ (rtcDecode b).hour ≤ 125) ∧
  (([0x00, 0x23, 0x41, 0x51, 0x61, 0x71, 0x52, 0x72, 0xE5, 0xA3, 0xBF, 0xFF] : List Byte).map decodeHour =
    [0, 23, 1, 11, 13, 23, 12, 24, 17, 103, 125, 37])

/-- R78 and R51: RTC_DEC completes for every block, and each field of its `CT72` is the decoded one. -/
def Obligations.RtcDecResult : Prop :=
  (∀ w : Command, w.extractLsb' 72 8 = 0x03 →
    decode w = .ok (.rtcDec
      { seconds := w.extractLsb' 0 8, minutes := w.extractLsb' 8 8, hours := w.extractLsb' 16 8,
        dayOfWeek := w.extractLsb' 24 8, date := w.extractLsb' 32 8, monthCentury := w.extractLsb' 40 8,
        year := w.extractLsb' 48 8 })) ∧
  ∀ (b : RegBlock) (s : State), ∃ r : Result,
    exec (.rtcDec b) s = .next { s with responses := .ok r :: s.responses } ∧
      ((r.extractLsb' 0 16).toNat : Int) = (rtcDecode b).year ∧
      ((r.extractLsb' 16 8).toNat : Int) = (rtcDecode b).month ∧
      ((r.extractLsb' 24 8).toNat : Int) = (rtcDecode b).day ∧
      ((r.extractLsb' 32 8).toNat : Int) = (rtcDecode b).hour ∧
      ((r.extractLsb' 40 8).toNat : Int) = (rtcDecode b).minute ∧
      ((r.extractLsb' 48 8).toNat : Int) = (rtcDecode b).second ∧
      (r.extractLsb' 56 16).toInt = (rtcDecode b).weekday

/-- R79 to R85: the seven registers of every time that can be written, and RangeError for every other. -/
def Obligations.RtcEncodeRegistersOrRangeError : Prop :=
  ∀ t : CalendarTime,
    (encodable t → ∃ b : RegBlock, rtcEncode t = .ok b ∧
      (b.seconds.toNat : Int) = 16 * (t.second / 10) + t.second % 10 ∧
      (b.minutes.toNat : Int) = 16 * (t.minute / 10) + t.minute % 10 ∧
      (b.hours.toNat : Int) = 16 * (t.hour / 10) + t.hour % 10 ∧
      (b.dayOfWeek.toNat : Int) = t.weekday + 1 ∧
      (b.date.toNat : Int) = 16 * (t.day / 10) + t.day % 10 ∧
      (t.year < 2000 → (b.monthCentury.toNat : Int) = 16 * (t.month / 10) + t.month % 10 ∧
        (b.year.toNat : Int) = 16 * ((t.year - 1900) / 10) + (t.year - 1900) % 10) ∧
      (2000 ≤ t.year → (b.monthCentury.toNat : Int) % 128 = (16 * (t.month / 10) + t.month % 10) % 128 ∧
        b.monthCentury.getLsbD 7 = true ∧
        (b.year.toNat : Int) = 16 * ((t.year - 2000) / 10) + (t.year - 2000) % 10)) ∧
    (¬ encodable t → rtcEncode t = .error .rangeError)

/-- R82, R85 and 93_implementation_defined.md U3: which hours, months and years read back as other numbers, and the bits
that make them. -/
def Obligations.HoursAndMonthsThatReadBackDifferently : Prop :=
  ∀ (t : CalendarTime) (b : RegBlock), rtcEncode t = .ok b →
    (b.hours.getLsbD 6 = true ↔ 40 ≤ t.hour ∧ t.hour ≤ 79) ∧
    ((rtcDecode b).hour = t.hour ↔ ¬ (40 ≤ t.hour ∧ t.hour ≤ 79)) ∧
    ((rtcDecode b).month = t.month ↔ t.month ≤ 19) ∧
    (t.month ≤ 19 → b.monthCentury.getLsbD 6 = false ∧ b.monthCentury.getLsbD 5 = false) ∧
    (20 ≤ t.month ∧ t.month ≤ 79 → b.monthCentury.getLsbD 6 = true ∨ b.monthCentury.getLsbD 5 = true) ∧
    (80 ≤ t.month → b.monthCentury.getLsbD 7 = true) ∧
    (rtcDecode b).year = if 80 ≤ t.month ∧ t.year < 2000 then t.year + 100 else t.year

/-- R52 and R86: RTC_ENC completes for every time that can be written, with the block in `R[55:0]` and 0 above it, and
faults with RANGE_ERROR for every other. -/
def Obligations.RtcEncResult : Prop :=
  (∀ w : Command, w.extractLsb' 72 8 = 0x04 →
    decode w = .ok (.rtcEnc
      { year := (w.extractLsb' 0 16).toNat, month := (w.extractLsb' 16 8).toNat, day := (w.extractLsb' 24 8).toNat,
        hour := (w.extractLsb' 32 8).toNat, minute := (w.extractLsb' 40 8).toNat,
        second := (w.extractLsb' 48 8).toNat, weekday := (w.extractLsb' 56 16).toInt })) ∧
  ∀ (t : CalendarTime) (s : State),
    (encodable t → ∃ (b : RegBlock) (r : Result), rtcEncode t = .ok b ∧
      exec (.rtcEnc t) s = .next { s with responses := .ok r :: s.responses } ∧
      r.extractLsb' 0 8 = b.seconds ∧ r.extractLsb' 8 8 = b.minutes ∧ r.extractLsb' 16 8 = b.hours ∧
      r.extractLsb' 24 8 = b.dayOfWeek ∧ r.extractLsb' 32 8 = b.date ∧ r.extractLsb' 40 8 = b.monthCentury ∧
      r.extractLsb' 48 8 = b.year ∧ r.extractLsb' 56 16 = 0) ∧
    (¬ encodable t → exec (.rtcEnc t) s =
      .next { s with fault := true, cause := .rangeError, responses := .rangeError :: s.responses })

/-- R146: the domain on which unpacking what was packed gives the time back; it holds every valid time of the years 1900
to 2099. -/
def Obligations.RtcRoundTripOfTimes : Prop :=
  (∀ t : CalendarTime, encodable t → t.month ≤ 19 → (t.hour ≤ 39 ∨ 80 ≤ t.hour) →
    ∃ b, rtcEncode t = .ok b ∧ rtcDecode b = t) ∧
  ∀ t : CalendarTime, t.valid = true → t.year ≤ 2099 → ∃ b, rtcEncode t = .ok b ∧ rtcDecode b = t

/-- R147: the register blocks that come back from being unpacked and packed are exactly these; the rule's examples of
registers that do not. -/
def Obligations.RtcRoundTripOfBlocks : Prop :=
  (decodeHour 0x65 = 17 ∧ encodeBcd 17 = .ok 0x17 ∧ encodeBcd (decodeBcd 0x1A) = .ok 0x20 ∧
    encodeBcd (decodeBcd 0xFF) = .error .rangeError) ∧
  ∀ b : RegBlock, rtcEncode (rtcDecode b) = .ok b ↔
    isBcd b.seconds ∧ isBcd b.minutes ∧ isBcd b.date ∧ isBcd b.year ∧
      (isBcd b.hours ∧ b.hours.getLsbD 6 = false) ∧
      (b.monthCentury.getLsbD 6 = false ∧ b.monthCentury.getLsbD 5 = false ∧ b.monthCentury.toNat % 16 ≤ 9)

/-! ## Unit U3, the temperature monitor -/

/-- R53, R88 to R92 at the thresholds R4 gives this instance, with which exec runs (DESIGN CHOICE, log entry 6): TEMP_POLL
completes for every reading and every state. -/
def Obligations.TempPollResult : Prop :=
  (∀ w : Command, w.extractLsb' 72 8 = 0x05 →
    decode w = .ok (.tempPoll (if w.getLsbD 32 then some (w.extractLsb' 0 32).toInt else none))) ∧
  (∀ s : State, exec (.tempPoll none) s = .next { s with responses := .ok 0 :: s.responses }) ∧
  (∀ (r : Int) (s : State), r < -3000 →
    exec (.tempPoll (some r)) s = .next { s with isLow := true, responses := .ok 1 :: s.responses }) ∧
  (∀ (r : Int) (s : State), -1500 < r →
    exec (.tempPoll (some r)) s = .next { s with isLow := false, responses := .ok 0 :: s.responses }) ∧
  (∀ (r : Int) (s : State), -3000 ≤ r ∧ r ≤ -1500 →
    exec (.tempPoll (some r)) s =
      .next { s with responses := .ok (if s.isLow then 1 else 0) :: s.responses })

/-- R54 and R93: TEMP_QUERY completes in every state. -/
def Obligations.TempQueryResult : Prop :=
  (∀ w : Command, w.extractLsb' 72 8 = 0x06 → decode w = .ok .tempQuery) ∧
  ∀ s : State, exec .tempQuery s = .next { s with responses := .ok (if s.isLow then 1 else 0) :: s.responses }

/-- R88, R89, R91: the two strict transitions, for any thresholds, and the report, which is the state after the
transition, or 0 with no reading. -/
def Obligations.TransitionsAreStrictAndReported : Prop :=
  ∀ (th : Thresholds) (l : Bool) (r : Int),
    (r < th.low → tempStep th false (some r) = (true, true)) ∧
    (th.low ≤ r → tempStep th false (some r) = (false, false)) ∧
    (th.high < r → tempStep th true (some r) = (false, false)) ∧
    (r ≤ th.high → tempStep th true (some r) = (true, true)) ∧
    (tempStep th l none).2 = false

/-- R94: the hysteresis band, for every ordered pair of thresholds, and for this instance's. -/
def Obligations.HysteresisBandKeepsTheState : Prop :=
  (∀ (th : Thresholds) (l : Bool) (r : Int), th.ordered →
    (th.low ≤ r ∧ r ≤ th.high → tempStep th l (some r) = (l, l)) ∧
    (th.low ≤ r → (tempStep th false (some r)).1 = false) ∧
    (r ≤ th.high → (tempStep th true (some r)).1 = true) ∧ ¬ (r < th.low ∧ r > th.high)) ∧
  (tempStep Config.thresholds false (some (-3000))).1 = false ∧
  (tempStep Config.thresholds false (some (-3001))).1 = true ∧
  (tempStep Config.thresholds true (some (-1500))).1 = true ∧
  (tempStep Config.thresholds true (some (-1499))).1 = false

/-- R97: with no reading the state is kept and the report is not-low. -/
def Obligations.NoReadingKeepsTheStateAndReportsNotLow : Prop :=
  ∀ (th : Thresholds) (l : Bool), tempStep th l none = (l, false)

/-- R96: the document's five readings, each poll from the state the one before left: report and state both. -/
def Obligations.DocumentedReadingSequence : Prop :=
  tempStep Config.thresholds false (some (-1000)) = (false, false) ∧
    tempStep Config.thresholds false (some (-3500)) = (true, true) ∧
    tempStep Config.thresholds true (some (-2000)) = (true, true) ∧
    tempStep Config.thresholds true (some (-1600)) = (true, true) ∧
    tempStep Config.thresholds true (some (-1400)) = (false, false)

/-- Derived from R88, R89, R92 and R94, at the thresholds of this instance (R4; DESIGN CHOICE, log entry 6): after any
sequence of polls, given to the machine as command words, the state is decided by the last reading outside the band, and is
the starting state if there was none. -/
def Obligations.LastReadingOutsideTheBandDecides : Prop :=
  ∀ (readings : List (Option Int)) (s : State), s.fault = false →
    (∀ x ∈ readings, (Instr.tempPoll x).wf = true) →
    s.inputs = readings.map (fun x => HostInput.command (encode (.tempPoll x))) →
      ∃ t : State, Host.Core.run Sys2Proof.core readings.length s = .next t ∧ t.fault = false ∧ t.inputs = [] ∧
        t.responses.length = s.responses.length + readings.length ∧
        t.isLow =
          match (readings.reverse.filterMap id).find? (fun r => decide (r < -3000 ∨ -1500 < r)) with
          | none => s.isLow
          | some r => decide (r < -3000)

/-! ## Unit U4, the time window and the relay -/

/-- R55, R99 to R101: WINDOW completes for every hour and month and every state. -/
def Obligations.WindowResult : Prop :=
  (∀ w : Command, w.extractLsb' 72 8 = 0x07 →
    decode w = .ok (.window (w.extractLsb' 32 8).toNat (w.extractLsb' 16 8).toNat)) ∧
  ∀ (hour month : Int) (s : State),
    let active : Result := if (hour < 7 ∨ 22 ≤ hour) ∧ (month ≤ 5 ∨ 9 ≤ month) then 1 else 0
    exec (.window hour month) s = .next { s with responses := .ok active :: s.responses }

/-- R106: the document's examples, the two boundary hours, and the 81 of 288 pairs. -/
def Obligations.WindowExamplesAndCount : Prop :=
  inActiveWindow 23 1 = true ∧ inActiveWindow 12 1 = false ∧ inActiveWindow 23 7 = false ∧
    inActiveWindow 6 12 = true ∧ isNight 7 = false ∧ isNight 22 = true ∧
    ((List.range 24).flatMap fun (h : Nat) =>
      ((List.range 12).map fun (m : Nat) => inActiveWindow h (m + 1)).filter id).length = 81

/-- R56, R102 and R103: RELAY completes for every pair of operands and every state, by the full table. -/
def Obligations.RelayResult : Prop :=
  (∀ w : Command, w.extractLsb' 72 8 = 0x08 → decode w = .ok (.relay (w.getLsbD 0) (w.getLsbD 1))) ∧
  (∀ s : State, exec (.relay false false) s = .next { s with responses := .ok 0 :: s.responses }) ∧
  (∀ s : State, exec (.relay false true) s = .next { s with responses := .ok 0 :: s.responses }) ∧
  (∀ s : State, exec (.relay true false) s = .next { s with responses := .ok 1 :: s.responses }) ∧
  (∀ s : State, exec (.relay true true) s = .next { s with responses := .ok 0 :: s.responses })

/-! ## The host and the RTC chip -/

/-- Derived from R34: in whatever order the host writes the seven registers, the chip ends with the block, if it does not
count in between. -/
def Obligations.WritesInAnyOrderStoreTheBlock : Prop :=
  ∀ (regs block : RegBlock) (order : List (Fin 7)), isWriteOrder order →
    chipRun regs (writesInOrder block order) = block

/-- Derived from R136: a reader between two of the seven writes sees each register either old or new, new exactly when it
has been written, if the chip does not count in between. -/
def Obligations.TornReadMixesOldAndNew : Prop :=
  ∀ (regs block : RegBlock) (order : List (Fin 7)) (n : Nat) (k : Fin 7), isWriteOrder order →
    RegBlock.get (chipRun regs ((writesInOrder block order).take n)) k =
      if k ∈ order.take n then RegBlock.get block k else RegBlock.get regs k

/-- Derived from R102, R105 and R132: a cycle in which no access and no command fails sets the clock to the decoded time
and drives the relay with the window of the local time and the report of the poll, which is not the kept state. What is
polled for a temperature outside the format is the host's choice (log entry 13); the thresholds are log entry 6's. -/
def Obligations.CycleDrivesTheRelayFromWindowAndReport : Prop :=
  ∀ (work : CycleWork) (regs : RegBlock) (reading : Option Int) (s : State), s.fault = false →
    work.rtc = some regs → readingOf work.instead work.sensor = .ok reading →
    (Instr.window (work.localTime (rtcDecode regs)).hour (work.localTime (rtcDecode regs)).month).wf = true →
      (controlCycle work s).stop = none ∧
      (controlCycle work s).clock = some (rtcDecode regs) ∧
      (controlCycle work s).block.fault = false ∧
      (controlCycle work s).block.isLow = (tempStep Config.thresholds s.isLow reading).1 ∧
      (controlCycle work s).relay =
        some (inActiveWindow (work.localTime (rtcDecode regs)).hour (work.localTime (rtcDecode regs)).month &&
          !(tempStep Config.thresholds s.isLow reading).2)

/-- Derived from R130, R131 and R139: after the host's process has started, whatever state the block was in, the monitor
is not low and the block is not faulted, and the clock is the decoded time; a bus failure stops the process at once. -/
def Obligations.BootSyncsTheClockAndForgetsTheMonitor : Prop :=
  ∀ (s : State) (regs : RegBlock),
    (boot (some regs) s).clock = some (rtcDecode regs) ∧ (boot (some regs) s).stop = none ∧
      (boot (some regs) s).block.isLow = false ∧ (boot (some regs) s).block.fault = false ∧
      (boot none s).block.isLow = false ∧ (boot none s).block.fault = false ∧ (boot none s).clock = none ∧
      (boot none s).stop = some (.error .hardwareIO)

/-- Derived from R37, R110 and R139: a failed bus access is not retried and ends the host's process with HardwareIOError: no
command of the cycle after it is issued, no relay level is written, and no later cycle runs. -/
def Obligations.BusFailureEndsTheHost : Prop :=
  (∀ (work : CycleWork) (s : State), work.rtc = none →
    (controlCycle work s).block = s ∧ (controlCycle work s).relay = none ∧
      (controlCycle work s).stop = some (.error .hardwareIO)) ∧
  (∀ (work : CycleWork) (regs : RegBlock) (s : State), s.fault = false → work.rtc = some regs →
    work.sensor = .error .hardwareIO →
      (controlCycle work s).block.isLow = s.isLow ∧
        (controlCycle work s).block.responses.length = s.responses.length + 1 ∧
        (controlCycle work s).relay = none ∧ (controlCycle work s).stop = some (.error .hardwareIO)) ∧
  ∀ (works : List CycleWork) (e : CycleEnd), e.stop ≠ none → controlLoop works e = e

/-- Derived from R37 and R110: a register write that fails ends the sequence with HardwareIOError: the writes before it
have happened, none after it does, and the chip goes on counting from whatever the failure left (log entry 12). -/
def Obligations.FailedRegisterWriteEndsTheSequence : Prop :=
  ∀ (regs left : RegBlock) (before after : List ChipEvent) (k : Fin 7) (v : Byte),
    (∀ e ∈ before, ∀ k' v' l, e ≠ .writeFailed k' v' l) →
      hostWrites regs before = (chipRun regs before, .ok ()) ∧
      (hostWrites regs (before ++ .writeFailed k v left :: after)).2 = .error .hardwareIO ∧
      (hostWrites regs (before ++ .writeFailed k v left :: after)).1 =
        chipRun left (after.filter fun e => match e with | .count _ => true | _ => false)

/-- Derived from R34, R86 and R146: setting the RTC to a valid time of the years to 2099, its registers in any order, with no
failure and no counting in between, leaves registers that unpack to that time and leaves `S` as it was. -/
def Obligations.SettingTheRtcStoresTheTime : Prop :=
  ∀ (t : CalendarTime) (order : List (Fin 7)) (regs : RegBlock) (s : State), s.fault = false →
    t.valid = true → t.year ≤ 2099 → isWriteOrder order →
      let e := setRtc t (order.map WriteStep.write) regs s
      e.stop = none ∧ rtcDecode e.rtc = t ∧
        e.block.isLow = s.isLow ∧ e.block.fault = false ∧ e.block.cause = s.cause

/-- Derived from R20 and 93_implementation_defined.md U10, with log entry 13: whatever the host presents for a sensor access
fits the 32-bit reading; a temperature that fits is presented as it is, and an absent sensor as no reading (R111). -/
def Obligations.PresentedReadingsFitTheFormat : Prop :=
  ∀ (instead : Option (BitVec 32)) (sensor : Except HostError Int) (reading : Option Int),
    readingOf instead sensor = .ok reading →
      (Instr.tempPoll reading).wf = true ∧
      (∀ r, sensor = .ok r → -2147483648 ≤ r → r ≤ 2147483647 → reading = some r) ∧
      (sensor = .error .sensorAbsent → reading = none)

/-! ## The pins, and TEMP_POLL for any thresholds -/

/-- R25: the three pins follow `S` in every state, and TEMP_QUERY answers the bit that `is_low_o` shows. -/
def Obligations.PinsFollowSInEveryState : Prop :=
  ∀ s : State, s.isLowO = s.isLow ∧ s.faultO = s.fault ∧
    (s.cause = .none → s.causeO = 0x00) ∧ (s.cause = .rangeError → s.causeO = 0x01) ∧
    (s.cause = .illegalCommand → s.causeO = 0x02) ∧
    exec .tempQuery s = .next { s with responses := .ok (if s.isLowO then 1 else 0) :: s.responses }

/-- R53, R90: TEMP_POLL's operands, its effect by temp_step for any thresholds, and that no other operation writes
`is_low`. That exec runs it with this instance's thresholds is TempPollResult's. -/
def Obligations.TempPollIsTheOnlyWriterOfIsLow : Prop :=
  (∀ w : Command, w.extractLsb' 72 8 = 0x05 →
    decode w = .ok (.tempPoll (if w.getLsbD 32 then some (w.extractLsb' 0 32).toInt else none))) ∧
  (∀ (th : Thresholds) (reading : Option Int) (s : State),
    tempPollWith th reading s =
      .next { s with isLow := (tempStep th s.isLow reading).1,
                     responses := .ok (if (tempStep th s.isLow reading).2 then 1 else 0) :: s.responses }) ∧
  ∀ (i : Instr) (s t : State), exec i s = .next t → t.isLow ≠ s.isLow → ∃ r, i = .tempPoll (some r)
end

