-- ==== Sys2Proof/Laws/Encoding.lean ====
section
/-! SUPPORT. The formats of Operands.lean and Decode.lean bit by bit, and that packing and unpacking are inverse. Widths
such as `8 + 72` and `80` are equal but not written alike: each format is opened here once and cited elsewhere. -/

namespace Sys2Proof

/-! ## Integers in fields -/

theorem ofInt_toNat_of_fits {n : Nat} {v : Int} (h : fitsU n v = true) : ((BitVec.ofInt n v).toNat : Int) = v := by
  simp only [fitsU, Bool.and_eq_true, decide_eq_true_eq] at h
  have hv : v % (2 ^ n : Nat) = v := Int.emod_eq_of_lt h.1 (by exact_mod_cast h.2)
  rw [BitVec.toNat_ofInt, hv, Int.toNat_of_nonneg h.1]

theorem ofInt_toInt_of_fits {n : Nat} {v : Int} (h : fitsS n v = true) : (BitVec.ofInt (n + 1) v).toInt = v := by
  simp only [fitsS, Bool.and_eq_true, decide_eq_true_eq] at h
  rw [BitVec.toInt_ofInt]
  apply Int.bmod_eq_of_le <;> push_cast [pow_succ] <;> omega

theorem fitsU_toNat {n : Nat} (b : BitVec n) : fitsU n b.toNat = true := by
  simp only [fitsU, Bool.and_eq_true, decide_eq_true_eq]
  exact ⟨Int.natCast_nonneg _, by exact_mod_cast b.isLt⟩

theorem fitsS_toInt {n : Nat} (b : BitVec (n + 1)) : fitsS n b.toInt = true := by
  have h1 := BitVec.le_toInt b
  have h2 := BitVec.toInt_lt (x := b)
  simp only [Nat.add_sub_cancel] at h1 h2
  simp [fitsS, h1, h2]

/-! ## The command word -/

/-- Bit `j` of an opcode over a payload. -/
theorem getLsbD_command (c : Byte) (p : Payload) (j : Nat) :
    BitVec.getLsbD (w := 80) (c ++ p) j = if j < 72 then p.getLsbD j else c.getLsbD (j - 72) :=
  BitVec.getLsbD_append

theorem opcodeOf_append (c : Byte) (p : Payload) : opcodeOf (c ++ p) = c := by
  apply BitVec.eq_of_getLsbD_eq
  intro j hj
  simp [opcodeOf, getLsbD_command, hj]

theorem payloadOf_append (c : Byte) (p : Payload) : payloadOf (c ++ p) = p := by
  apply BitVec.eq_of_getLsbD_eq
  intro j hj
  simp [payloadOf, getLsbD_command, hj]

/-- A command word is its opcode over its payload (R45). -/
theorem command_eq_append (w : Command) : w = opcodeOf w ++ payloadOf w := by
  apply BitVec.eq_of_getLsbD_eq
  intro j hj
  rw [getLsbD_command]
  by_cases h : j < 72
  · simp [payloadOf, h]
  · simp [opcodeOf, h, show 72 + (j - 72) = j from by omega, show j - 72 < 8 from by omega]

theorem ofCode_code (op : Opcode) : Opcode.ofCode op.code = some op := by cases op <;> rfl

theorem code_of_ofCode {c : Byte} {op : Opcode} (h : Opcode.ofCode c = some op) : c = op.code := by
  have all : ∀ c : Byte, ∀ op ∈ Opcode.ofCode c, c = op.code := by decide
  exact all c op h

theorem operandsOf_opcode (op : Opcode) (p : Payload) : (operandsOf op p).opcode = op := by cases op <;> rfl

/-- Decoding a word written as an assigned opcode over a payload (R62). -/
theorem decode_append (op : Opcode) (p : Payload) : decode (op.code ++ p) = .ok (operandsOf op p) := by
  simp [decode, opcodeOf_append, payloadOf_append, ofCode_code]

/-- What a decoded word is: an assigned opcode, and the operands of its payload (R62). -/
theorem decode_ok {w : Command} {i : Instr} (h : decode w = .ok i) :
    ∃ op, Opcode.ofCode (opcodeOf w) = some op ∧ w = op.code ++ payloadOf w ∧ i = operandsOf op (payloadOf w) := by
  unfold decode at h
  split at h
  · rename_i op ho
    have hw := command_eq_append w
    rw [code_of_ofCode ho] at hw
    exact ⟨op, ho, hw, by cases h; rfl⟩
  · cases h

/-! ## The payload formats -/

theorem getLsbD_zext72 {n : Nat} (b : BitVec n) (j : Nat) :
    (zext72 b).getLsbD j = (decide (j < 72) && b.getLsbD j) := BitVec.getLsbD_setWidth ..

theorem extract_zext72 {n : Nat} (b : BitVec n) (h : n ≤ 72) : (zext72 b).extractLsb' 0 n = b := by
  apply BitVec.eq_of_getLsbD_eq
  intro j hj
  simp only [BitVec.getLsbD_extractLsb', Nat.zero_add, getLsbD_zext72]
  simp [hj, Nat.lt_of_lt_of_le hj h]

/-- Bit `j` of a `BLK56` (R17). -/
theorem getLsbD_packBlock (b : RegBlock) (j : Nat) :
    (packBlock b).getLsbD j =
      if j < 8 then b.seconds.getLsbD j
      else if j < 16 then b.minutes.getLsbD (j - 8)
      else if j < 24 then b.hours.getLsbD (j - 16)
      else if j < 32 then b.dayOfWeek.getLsbD (j - 24)
      else if j < 40 then b.date.getLsbD (j - 32)
      else if j < 48 then b.monthCentury.getLsbD (j - 40)
      else b.year.getLsbD (j - 48) := by
  change BitVec.getLsbD (w := 8 + 8 + 8 + 8 + 8 + 8 + 8) (_ ++ _ ++ _ ++ _ ++ _ ++ _ ++ _) j = _
  simp only [BitVec.getLsbD_append]
  repeat' split
  all_goals first | omega | rfl

/-- Bit `j` of a `CT72` (R18). -/
theorem getLsbD_packTime (t : CalendarTime) (j : Nat) :
    (packTime t).getLsbD j =
      if j < 16 then (BitVec.ofInt 16 t.year).getLsbD j
      else if j < 24 then (BitVec.ofInt 8 t.month).getLsbD (j - 16)
      else if j < 32 then (BitVec.ofInt 8 t.day).getLsbD (j - 24)
      else if j < 40 then (BitVec.ofInt 8 t.hour).getLsbD (j - 32)
      else if j < 48 then (BitVec.ofInt 8 t.minute).getLsbD (j - 40)
      else if j < 56 then (BitVec.ofInt 8 t.second).getLsbD (j - 48)
      else (BitVec.ofInt 16 t.weekday).getLsbD (j - 56) := by
  change BitVec.getLsbD (w := 16 + 8 + 8 + 8 + 8 + 8 + 16) (_ ++ _ ++ _ ++ _ ++ _ ++ _ ++ _) j = _
  simp only [BitVec.getLsbD_append]
  repeat' split
  all_goals first | omega | rfl

/-- The seven fields of a `CT72` are the seven fields of the time, as bit vectors (R18). -/
theorem fields_packTime (t : CalendarTime) :
    (packTime t).extractLsb' 0 16 = BitVec.ofInt 16 t.year ∧
      (packTime t).extractLsb' 16 8 = BitVec.ofInt 8 t.month ∧
      (packTime t).extractLsb' 24 8 = BitVec.ofInt 8 t.day ∧
      (packTime t).extractLsb' 32 8 = BitVec.ofInt 8 t.hour ∧
      (packTime t).extractLsb' 40 8 = BitVec.ofInt 8 t.minute ∧
      (packTime t).extractLsb' 48 8 = BitVec.ofInt 8 t.second ∧
      (packTime t).extractLsb' 56 16 = BitVec.ofInt 16 t.weekday := by
  refine ⟨?_, ?_, ?_, ?_, ?_, ?_, ?_⟩ <;> apply BitVec.eq_of_getLsbD_eq <;> intro j hj <;>
    rw [BitVec.getLsbD_extractLsb', getLsbD_packTime] <;> simp only [hj, decide_true, Bool.true_and]
  all_goals repeat' split
  all_goals first | omega | (congr 1; omega)

/-- The seven registers of a `BLK56`, and 0 above it (R17, R52). -/
theorem fields_packBlock (b : RegBlock) :
    unpackBlock (zext72 (packBlock b)) = b ∧ (zext72 (packBlock b)).extractLsb' 56 16 = 0 := by
  constructor
  · cases b
    simp only [unpackBlock, RegBlock.mk.injEq]
    refine ⟨?_, ?_, ?_, ?_, ?_, ?_, ?_⟩ <;> apply BitVec.eq_of_getLsbD_eq <;> intro j hj <;>
      rw [BitVec.getLsbD_extractLsb', getLsbD_zext72, getLsbD_packBlock] <;> simp only [hj, decide_true, Bool.true_and]
    all_goals repeat' split
    all_goals first
      | omega
      | (simp only [Nat.add_sub_cancel_left, Nat.zero_add, Bool.and_eq_right_iff_imp, decide_eq_true_eq]; omega)
  · apply BitVec.eq_of_getLsbD_eq
    intro j hj
    rw [BitVec.getLsbD_extractLsb', getLsbD_zext72, BitVec.getLsbD_of_ge _ _ (show 56 ≤ 56 + j by omega)]
    simp

/-- Unpacking what was packed gives the time back when every field fits (R18). -/
theorem unpackTime_packTime (t : CalendarTime) (h : t.fits = true) : unpackTime (packTime t) = t := by
  simp only [CalendarTime.fits, Bool.and_eq_true] at h
  obtain ⟨⟨⟨⟨⟨⟨h1, h2⟩, h3⟩, h4⟩, h5⟩, h6⟩, h7⟩ := h
  obtain ⟨e1, e2, e3, e4, e5, e6, e7⟩ := fields_packTime t
  simp only [unpackTime, u8At, e1, e2, e3, e4, e5, e6, e7, ofInt_toNat_of_fits h1, ofInt_toNat_of_fits h2,
    ofInt_toNat_of_fits h3, ofInt_toNat_of_fits h4, ofInt_toNat_of_fits h5, ofInt_toNat_of_fits h6,
    ofInt_toInt_of_fits h7]

/-- Packing what was unpacked gives all 72 bits back (R18). -/
theorem packTime_unpackTime (p : Payload) : packTime (unpackTime p) = p := by
  apply BitVec.eq_of_getLsbD_eq
  intro j hj
  rw [getLsbD_packTime]
  simp only [unpackTime, u8At, BitVec.ofInt_natCast, BitVec.ofNat_toNat, BitVec.setWidth_eq, BitVec.ofInt_toInt,
    BitVec.getLsbD_extractLsb']
  have back : ∀ a : Nat, a ≤ j → a + (j - a) = j := fun a h => by omega
  repeat' split
  all_goals first
    | omega
    | (rw [Nat.zero_add, decide_eq_true ‹_›, Bool.true_and])
    | (rw [back _ (by omega), decide_eq_true (by omega), Bool.true_and])

end Sys2Proof
end

