-- ==== Sys2Proof/Laws/State.lean ====
section
/-! SUPPORT. What each state update does to each field, so that no proof unfolds a record update. -/

namespace Sys2Proof.Machine

variable (s : State) (r : Response) (v : Bool) (e : BlockError) (w : Command) (rest : List HostInput)

@[simp] theorem deliver_isLow : (s.deliver r).isLow = s.isLow := rfl
@[simp] theorem deliver_fault : (s.deliver r).fault = s.fault := rfl
@[simp] theorem deliver_cause : (s.deliver r).cause = s.cause := rfl
@[simp] theorem deliver_inputs : (s.deliver r).inputs = s.inputs := rfl
@[simp] theorem deliver_responses : (s.deliver r).responses = r :: s.responses := rfl
@[simp] theorem deliver_freeCount : (s.deliver r).freeCount = s.freeCount := rfl

@[simp] theorem setIsLow_isLow : (s.setIsLow v).isLow = v := rfl
@[simp] theorem setIsLow_fault : (s.setIsLow v).fault = s.fault := rfl
@[simp] theorem setIsLow_cause : (s.setIsLow v).cause = s.cause := rfl
@[simp] theorem setIsLow_inputs : (s.setIsLow v).inputs = s.inputs := rfl
@[simp] theorem setIsLow_responses : (s.setIsLow v).responses = s.responses := rfl
@[simp] theorem setIsLow_freeCount : (s.setIsLow v).freeCount = s.freeCount := rfl
@[simp] theorem setIsLow_same : s.setIsLow s.isLow = s := rfl

@[simp] theorem recordFault_isLow : (s.recordFault e).isLow = s.isLow := rfl
@[simp] theorem recordFault_fault : (s.recordFault e).fault = true := rfl
@[simp] theorem recordFault_cause : (s.recordFault e).cause = e.cause := rfl
@[simp] theorem recordFault_inputs : (s.recordFault e).inputs = s.inputs := rfl
@[simp] theorem recordFault_responses : (s.recordFault e).responses = s.responses := rfl
@[simp] theorem recordFault_freeCount : (s.recordFault e).freeCount = s.freeCount := rfl

@[simp] theorem clear_isLow : s.clear.isLow = false := rfl
@[simp] theorem clear_fault : s.clear.fault = false := rfl
@[simp] theorem clear_cause : s.clear.cause = .none := rfl
@[simp] theorem clear_inputs : s.clear.inputs = s.inputs := rfl
@[simp] theorem clear_responses : s.clear.responses = s.responses := rfl
@[simp] theorem clear_freeCount : s.clear.freeCount = s.freeCount := rfl

@[simp] theorem present_isLow : (s.present w).isLow = s.isLow := rfl
@[simp] theorem present_fault : (s.present w).fault = s.fault := rfl
@[simp] theorem present_cause : (s.present w).cause = s.cause := rfl
@[simp] theorem present_inputs : (s.present w).inputs = .command w :: s.inputs := rfl
@[simp] theorem present_responses : (s.present w).responses = s.responses := rfl
@[simp] theorem present_freeCount : (s.present w).freeCount = s.freeCount := rfl

@[simp] theorem withInputs_isLow : (s.withInputs rest).isLow = s.isLow := rfl
@[simp] theorem withInputs_fault : (s.withInputs rest).fault = s.fault := rfl
@[simp] theorem withInputs_cause : (s.withInputs rest).cause = s.cause := rfl
@[simp] theorem withInputs_inputs : (s.withInputs rest).inputs = rest := rfl
@[simp] theorem withInputs_responses : (s.withInputs rest).responses = s.responses := rfl
@[simp] theorem withInputs_freeCount : (s.withInputs rest).freeCount = s.freeCount := rfl

/-- The code of a recorded cause is the status of the response that reports it (R46). -/
theorem response_status_eq_cause_code : e.response.status = e.cause.code := by cases e <;> rfl

/-- A raised error never records NONE (R15). -/
@[simp] theorem cause_ne_none : e.cause ≠ .none := by cases e <;> decide

end Sys2Proof.Machine
end

