-- ==== Sys2Proof/Laws/Ops.lean ====
section
/-! SUPPORT. What each shared operation, exec and step can do, said once. -/

namespace Sys2Proof.Machine

variable (run : Instr → State → Answer)

@[simp] theorem finish_eq (r : Result) (s : State) : finish r s = .next (s.deliver (.ok r)) := rfl

@[simp] theorem takeFault_eq (e : BlockError) (s : State) :
    takeFault e s = .next ((s.recordFault e).deliver e.response) := rfl

@[simp] theorem refuse_eq (s : State) : refuse s = .next (s.deliver .refused) := rfl

@[simp] theorem finishOrFault_ok (v : Result) (s : State) : finishOrFault (.ok v) s = finish v s := rfl

@[simp] theorem finishOrFault_error (e : BlockError) (s : State) :
    finishOrFault (.error e) s = takeFault e s := rfl

/-- The first test of R115. -/
theorem runCommand_faulted {w : Command} {s : State} (h : s.fault = true) :
    runCommand run w s = refuse s := by simp [runCommand, h]

/-- The second test of R115. -/
theorem runCommand_reserved {w : Command} {s : State} {d : DecodeError} (h : s.fault = false)
    (hd : decode w = .error d) : runCommand run w s = takeFault .illegalCommand s := by
  simp [runCommand, h, hd]

/-- The third test of R115. -/
theorem runCommand_decoded {w : Command} {s : State} {i : Instr} (h : s.fault = false)
    (hd : decode w = .ok i) : runCommand run w s = run i s := by
  simp [runCommand, h, hd]

/-- encode_bcd raises nothing but RangeError (R64). -/
theorem encodeBcd_error {v : Int} {e : BlockError} (h : encodeBcd v = .error e) : e = .rangeError := by
  unfold encodeBcd at h
  split at h <;> simp_all

/-- The packer raises nothing but RangeError (R81). -/
theorem rtcEncode_error {t : CalendarTime} {e : BlockError} (h : rtcEncode t = .error e) :
    e = .rangeError := by
  have hw : ∀ {v : Int} {e : BlockError}, encodeWeekday v = .error e → e = .rangeError := by
    intro v e hv
    unfold encodeWeekday at hv
    split at hv <;> simp_all
  have hm : ∀ {y m : Int} {e : BlockError}, encodeMonth y m = .error e → e = .rangeError := by
    intro y m e hv
    simp only [encodeMonth, bind, Except.bind] at hv
    split at hv
    · rename_i hx; cases hv; exact encodeBcd_error hx
    · cases hv
  simp only [rtcEncode, bind, Except.bind] at h
  repeat' split at h
  all_goals first
    | (cases h; first | exact encodeBcd_error ‹_› | exact hw ‹_› | exact hm ‹_›)
    | cases h

/-- Everything exec can do: it ends OK, with a new `is_low` only for TEMP_POLL with a reading, or it takes RangeError, and
then it was BCD_ENC or RTC_ENC (R24, R109, R112). -/
theorem exec_cases (i : Instr) (s : State) :
    (∃ r l, exec i s = .next ((s.setIsLow l).deliver (.ok r)) ∧
        (l = s.isLow ∨ ∃ x, i = .tempPoll (some x))) ∨
      (exec i s = takeFault .rangeError s ∧ ((∃ v, i = .bcdEnc v) ∨ ∃ t, i = .rtcEnc t)) := by
  cases i with
  | bcdDec b => exact .inl ⟨_, s.isLow, rfl, .inl rfl⟩
  | bcdEnc v =>
    simp only [exec, execBcdEnc]
    cases h : encodeBcd v with
    | ok b => exact .inl ⟨_, s.isLow, rfl, .inl rfl⟩
    | error e => cases encodeBcd_error h; exact .inr ⟨rfl, .inl ⟨v, rfl⟩⟩
  | rtcDec b => exact .inl ⟨_, s.isLow, rfl, .inl rfl⟩
  | rtcEnc t =>
    simp only [exec, execRtcEnc]
    cases h : rtcEncode t with
    | ok b => exact .inl ⟨_, s.isLow, rfl, .inl rfl⟩
    | error e => cases rtcEncode_error h; exact .inr ⟨rfl, .inr ⟨t, rfl⟩⟩
  | tempPoll reading =>
    cases reading with
    | none => exact .inl ⟨_, s.isLow, rfl, .inl rfl⟩
    | some x => exact .inl ⟨_, _, rfl, .inr ⟨x, rfl⟩⟩
  | tempQuery => exact .inl ⟨_, s.isLow, rfl, .inl rfl⟩
  | window h m => exact .inl ⟨_, s.isLow, rfl, .inl rfl⟩
  | relay w l => exact .inl ⟨_, s.isLow, rfl, .inl rfl⟩

theorem step_idle {s : State} (h : s.inputs = []) : step s = .next s := by
  simp [step, runNext, h]

theorem step_input {s : State} {inp : HostInput} {rest : List HostInput} (h : s.inputs = inp :: rest) :
    step s = runInput exec inp (s.withInputs rest) := by
  simp [step, runNext, h]

/-- The four shapes of a step: nothing presented, reset, a command overtaken by reset, a command (R115, R128, R129). -/
theorem step_shapes (s : State) :
    (s.inputs = [] ∧ step s = .next s) ∨
      (∃ rest, s.inputs = .reset :: rest ∧ step s = .next (s.withInputs rest).clear) ∨
      (∃ w rest, s.inputs = .overtaken w :: rest ∧ step s = .next (overtake exec w (s.withInputs rest))) ∨
      ∃ w rest, s.inputs = .command w :: rest ∧ step s = runCommand exec w (s.withInputs rest) := by
  rcases h : s.inputs with _ | ⟨inp, rest⟩
  · exact .inl ⟨rfl, step_idle h⟩
  · cases inp with
    | reset => exact .inr (.inl ⟨rest, rfl, step_input h⟩)
    | overtaken w => exact .inr (.inr (.inl ⟨w, rest, rfl, step_input h⟩))
    | command w => exact .inr (.inr (.inr ⟨w, rest, rfl, step_input h⟩))

/-- The three shapes of running a command: refused, illegal, or exec of what it decodes to (R115). -/
theorem runCommand_shapes (w : Command) (s : State) :
    (s.fault = true ∧ runCommand run w s = refuse s) ∨
      (s.fault = false ∧ (∃ d, decode w = .error d) ∧ runCommand run w s = takeFault .illegalCommand s) ∨
      ∃ i, s.fault = false ∧ decode w = .ok i ∧ runCommand run w s = run i s := by
  rcases Bool.eq_false_or_eq_true s.fault with hf | hf
  · exact .inl ⟨hf, runCommand_faulted run hf⟩
  · cases hd : decode w with
    | error d => exact .inr (.inl ⟨hf, ⟨d, rfl⟩, runCommand_reserved run hf hd⟩)
    | ok i => exact .inr (.inr ⟨i, hf, rfl, runCommand_decoded run hf hd⟩)

end Sys2Proof.Machine
end

