-- ==== Sys2Proof/Laws/PerInstr.lean ====
section
/-! SUPPORT. Per-instruction laws of the encoding: an encoded instruction matches its row of the opcode map under the
row's mask (30_encoding.md R48). -/

namespace Sys2Proof

/-- An opcode byte over any payload, masked, is the opcode byte over a payload of zeros. -/
theorem append_and_mask (c : Byte) (p : Payload) : (c ++ p) &&& Opcode.mask = c ++ (0 : Payload) := by
  have h : Opcode.mask = (0xFF : Byte) ++ (0 : Payload) := by decide
  have hc : c &&& 0xFF = c := by
    rw [show (0xFF : Byte) = BitVec.allOnes 8 from by decide, BitVec.and_allOnes]
  rw [h, BitVec.and_append, hc]
  simp

namespace Laws.EncodeMatchesTable

/-- The row of the opcode map that `encode i` matches is the row of `i`. -/
def Statement (i : Instr) : Prop := encode i &&& Opcode.mask = i.opcode.pattern

theorem bcdDec (b : Byte) : Statement (.bcdDec b) := append_and_mask _ _
theorem bcdEnc (v : Int) : Statement (.bcdEnc v) := append_and_mask _ _
theorem rtcDec (block : RegBlock) : Statement (.rtcDec block) := append_and_mask _ _
theorem rtcEnc (t : CalendarTime) : Statement (.rtcEnc t) := append_and_mask _ _
theorem tempPoll (reading : Option Int) : Statement (.tempPoll reading) := append_and_mask _ _
theorem tempQuery : Statement .tempQuery := append_and_mask _ _
theorem window (hour month : Int) : Statement (.window hour month) := append_and_mask _ _
theorem relay (w l : Bool) : Statement (.relay w l) := append_and_mask _ _

end Laws.EncodeMatchesTable

end Sys2Proof
end

