-- ==== Sys2Proof/Laws/Units.lean ====
section
/-! SUPPORT. The functions of the units said once: the packer register by register, the reading and single bits as formats,
and exec of the instructions whose result is a case split. -/

namespace Sys2Proof.Machine

theorem bind_eq_ok_iff {α β : Type} (x : Except BlockError α) (f : α → Except BlockError β) (b : β) :
    (x >>= f) = .ok b ↔ ∃ a, x = .ok a ∧ f a = .ok b := by
  cases x <;> simp [bind, Except.bind]

/-- The packer succeeds exactly when each register can be encoded, and then with those registers (R81). -/
theorem rtcEncode_eq_ok_iff (t : CalendarTime) (b : RegBlock) :
    rtcEncode t = .ok b ↔
      encodeBcd t.second = .ok b.seconds ∧ encodeBcd t.minute = .ok b.minutes ∧ encodeBcd t.hour = .ok b.hours ∧
        encodeWeekday t.weekday = .ok b.dayOfWeek ∧ encodeBcd t.day = .ok b.date ∧
        encodeMonth t.year t.month = .ok b.monthCentury ∧ encodeYear t.year = .ok b.year := by
  simp only [rtcEncode, bind_eq_ok_iff]
  constructor
  · rintro ⟨_, h1, _, h2, _, h3, _, h4, _, h5, _, h6, _, h7, h⟩
    cases h
    exact ⟨h1, h2, h3, h4, h5, h6, h7⟩
  · rintro ⟨h1, h2, h3, h4, h5, h6, h7⟩
    exact ⟨_, h1, _, h2, _, h3, _, h4, _, h5, _, h6, _, h7, rfl⟩

/-- The month register is the BCD month with the century bit or-ed in (R85). -/
theorem encodeMonth_eq_ok_iff (year month : Int) (c : Byte) :
    encodeMonth year month = .ok c ↔
      ∃ m, encodeBcd month = .ok m ∧ c = m ||| (BitVec.ofBool (centuryBit year)).setWidth 8 <<< 7 := by
  simp only [encodeMonth, bind_eq_ok_iff, pure, Except.pure, Except.ok.injEq]
  exact exists_congr fun m => and_congr_right fun _ => eq_comm

/-- The day-of-week register of a weekday that has one (R83). -/
theorem encodeWeekday_of_mem {v : Int} (h : -1 ≤ v ∧ v ≤ 254) :
    encodeWeekday v = .ok (BitVec.ofInt 8 (v + 1)) := if_neg (by omega)

/-- A result bit is read back from `R[0]`. -/
@[simp] theorem bitResult_bit (b : Bool) : (bitResult b).getLsbD 0 = b := by cases b <;> decide

/-- A reading that fits its field is read back from the payload (R20, R53). -/
theorem unpackReading_packReading (r : Int) (h : fitsS 31 r = true) :
    unpackReading (packReading (some r)) = some r := by
  have bit : ∀ j, (packReading (some r)).getLsbD j =
      (decide (j < 72) && if j < 32 then (BitVec.ofInt 32 r).getLsbD j else (1#1).getLsbD (j - 32)) := by
    intro j
    rw [packReading, getLsbD_zext72]
    exact congrArg _ BitVec.getLsbD_append
  have field : (packReading (some r)).extractLsb' 0 32 = BitVec.ofInt 32 r := by
    apply BitVec.eq_of_getLsbD_eq
    intro j hj
    rw [BitVec.getLsbD_extractLsb', bit, Nat.zero_add]
    simp only [hj, decide_true, if_true, Bool.true_and, show j < 72 from by omega]
  unfold unpackReading
  rw [if_pos (by rw [bit]; rfl), field, ofInt_toInt_of_fits h]

/-- TEMP_POLL with a reading, for any thresholds (R90, R91). -/
theorem tempPollWith_some (th : Thresholds) (r : Int) (s : State) :
    tempPollWith th (some r) s =
      .next ((s.setIsLow (nextIsLow th s.isLow r)).deliver (.ok (bitResult (nextIsLow th s.isLow r)))) := rfl

/-- TEMP_POLL with no reading, for any thresholds (R92). -/
theorem tempPollWith_none (th : Thresholds) (s : State) :
    tempPollWith th none s = .next (s.deliver (.ok (bitResult false))) := rfl

end Sys2Proof.Machine
end

