-- ==== Sys2Proof/Laws/Surroundings.lean ====
section
/-! SUPPORT. What issuing a command, presenting a reading and writing the RTC can do, said once. -/

namespace Sys2Proof.Machine

/-- Whatever the host presents for a sensor access fits the reading format (R20; log entry 13). -/
theorem readingOf_fits {instead : Option (BitVec 32)} {sensor : Except HostError Int} {r : Int}
    (h : readingOf instead sensor = .ok (some r)) : fitsS 31 r = true := by
  unfold readingOf at h
  split at h
  · split at h
    · cases h
      assumption
    · cases instead with
      | none => cases h
      | some b => cases h; exact fitsS_toInt b
  · cases h
  · cases h

/-- A command that a block not faulted answers with `OK`, issued: the state after and the result. -/
theorem issue_ok {i : Instr} {s t : State} {r : Result} (hf : s.fault = false) (hw : i.wf = true)
    (hd : decode (encode i) = .ok i) (he : exec i s = .next t) (hr : t.responses = .ok r :: s.responses) :
    issue i s = (t, some r) := by
  have hs : step (s.present (encode i)) = .next t := by
    rw [step_input (s := s.present (encode i)) rfl, ← he]
    exact runCommand_decoded exec (s := (s.present (encode i)).withInputs s.inputs) hf hd
  simp only [issue, hw, if_true, hs, hr]

/-- An instruction that no command word carries is not presented (log entry 13). -/
theorem issue_illFormed {i : Instr} (s : State) (hw : i.wf = false) : issue i s = (s, none) := by
  simp [issue, hw]

@[simp] theorem hostWrites_nil (regs : RegBlock) : hostWrites regs [] = (regs, .ok ()) := rfl

@[simp] theorem hostWrites_write (regs : RegBlock) (k : Fin 7) (v : Byte) (es : List ChipEvent) :
    hostWrites regs (.write k v :: es) = hostWrites (RegBlock.set regs k v) es := rfl

@[simp] theorem hostWrites_count (regs r : RegBlock) (es : List ChipEvent) :
    hostWrites regs (.count r :: es) = hostWrites r es := rfl

@[simp] theorem hostWrites_writeFailed (regs left : RegBlock) (k : Fin 7) (v : Byte) (es : List ChipEvent) :
    hostWrites regs (.writeFailed k v left :: es) =
      (chipRun left (es.filter ChipEvent.isCount), .error .hardwareIO) := rfl

/-- Reading a register of a block with one register written. -/
@[simp] theorem get_set (b : RegBlock) (k j : Fin 7) (v : Byte) :
    RegBlock.get (RegBlock.set b k v) j = if j = k then v else RegBlock.get b j := by
  fin_cases k <;> fin_cases j <;> rfl

end Sys2Proof.Machine
end

