-- ==== Sys2Proof/Tests/Slice0.lean ====
section
/-! SUPPORT. Tests against the words of spec/95_test_vectors.md, 30_encoding.md R60 and the operation rules, the smoke test
of well-formedness, and for each obligation with hypotheses a witness that meets them. -/

namespace Sys2Proof.Tests

open Sys2Proof.Machine

/-- The block not faulted, with the given monitor state. -/
def running (isLow : Bool) : State := { State.reset with isLow := isLow }

/-- The block faulted with RANGE_ERROR while low (95_test_vectors.md 2.9). -/
def faulted : State := { State.reset with isLow := true, fault := true, cause := .rangeError }

/-- The next state of one step on a command. -/
def after (s : State) (w : Command) : Option State :=
  match step (s.present w) with
  | .next t => some t
  | _ => none

/-- One step on `w` answers the response word `r`. -/
def answers (s : State) (w : Command) (r : BitVec 80) : Bool :=
  match after s w with
  | some t => (t.responses.head?.map (fun x => x.shows r)).getD false
  | none => false

/-- `is_low`, `fault` and the code of `cause` after one step on `w`. -/
def stateAfter (s : State) (w : Command) : Option (Bool × Bool × Byte) :=
  (after s w).map fun t => (t.isLowO, t.faultO, t.causeO)

/-! ## Well-formedness: one ill-formed term for each check -/

theorem test_bcdEnc_operand_too_wide : (Instr.bcdEnc 32768).wf = false ∧ (Instr.bcdEnc (-32769)).wf = false := by decide
theorem test_rtcEnc_year_too_wide : (Instr.rtcEnc ⟨65536, 1, 1, 0, 0, 0, 0⟩).wf = false := by decide
theorem test_rtcEnc_month_too_wide : (Instr.rtcEnc ⟨2000, 256, 1, 0, 0, 0, 0⟩).wf = false := by decide
theorem test_rtcEnc_day_negative : (Instr.rtcEnc ⟨2000, 1, -1, 0, 0, 0, 0⟩).wf = false := by decide
theorem test_rtcEnc_hour_too_wide : (Instr.rtcEnc ⟨2000, 1, 1, 256, 0, 0, 0⟩).wf = false := by decide
theorem test_rtcEnc_minute_too_wide : (Instr.rtcEnc ⟨2000, 1, 1, 0, 256, 0, 0⟩).wf = false := by decide
theorem test_rtcEnc_second_too_wide : (Instr.rtcEnc ⟨2000, 1, 1, 0, 0, 256, 0⟩).wf = false := by decide
theorem test_rtcEnc_weekday_too_wide : (Instr.rtcEnc ⟨2000, 1, 1, 0, 0, 0, -32769⟩).wf = false := by decide
theorem test_tempPoll_reading_too_wide : (Instr.tempPoll (some 2147483648)).wf = false := by decide
theorem test_window_fields_too_wide : (Instr.window 256 1).wf = false ∧ (Instr.window 0 (-1)).wf = false := by decide

/-! ## Decoding, by words of R60 and of 95_test_vectors.md section 2 -/

theorem test_decode_bcdDec : decode 0x01FFFFFFFFFFFFFFFF59 = .ok (.bcdDec 0x59) := rfl
theorem test_decode_bcdEnc : decode 0x0200000000000000FFFF = .ok (.bcdEnc (-1)) := rfl
theorem test_decode_bcdEnc_ignores_above_15 : decode 0x02000000000000010005 = .ok (.bcdEnc 5) := rfl
theorem test_decode_rtcDec :
    decode 0x03ABCD24811503123456 = .ok (.rtcDec ⟨0x56, 0x34, 0x12, 0x03, 0x15, 0x81, 0x24⟩) := rfl
theorem test_decode_rtcEnc : decode 0x04FFFE00000C0F0107E8 = .ok (.rtcEnc ⟨2024, 1, 15, 12, 0, 0, -2⟩) := rfl
theorem test_decode_tempPoll : decode 0x05FFFFFFFE01FFFFF447 = .ok (.tempPoll (some (-3001))) := rfl
theorem test_decode_tempPoll_none : decode 0x050000000000FFFFEC78 = .ok (.tempPoll none) := rfl
theorem test_decode_tempQuery : decode 0x06FFFFFFFFFFFFFFFFFF = .ok .tempQuery := rfl
theorem test_decode_window : decode 0x07FFFFFFFF17FF01FFFF = .ok (.window 23 1) := rfl
theorem test_decode_relay : decode 0x08FFFFFFFFFFFFFFFFFD = .ok (.relay true false) := rfl
theorem test_decode_reserved :
    decode 0 = .error (.reservedOpcode 0x00) ∧ decode 0x09000000000000000000 = .error (.reservedOpcode 0x09) ∧
      decode 0xFFFFFFFFFFFFFFFFFFFF = .error (.reservedOpcode 0xFF) := ⟨rfl, rfl, rfl⟩
theorem test_encode_rtcEnc : encode (.rtcEnc ⟨2024, 1, 15, 12, 34, 56, 2⟩) = 0x04000238220C0F0107E8 := by decide
theorem test_encode_tempPoll : encode (.tempPoll (some (-3500))) = 0x050000000001FFFFF254 := by decide
theorem test_table_word : decodeTableWord 80 0x08000000000000000001 = some (.relay true false) := rfl
theorem test_step_runs_placed_word :
    (match step (State.reset.withFetchWord 80 0x01000000000000000059) with
      | .next t => t.responses
      | _ => []) = [.ok 59] := by decide

/-! ## One step of each instruction (95_test_vectors.md sections 2.1 to 2.9) -/

theorem test_bcdDec_nonBcd_maximum : answers (running false) 0x010000000000000000FF 0x000000000000000000A5 = true := by decide
theorem test_bcdDec_carries : answers (running true) 0x0100000000000000001A 0x00000000000000000014 = true := by decide
theorem test_bcdEnc_99 : answers (running false) 0x02000000000000000063 0x00000000000000000099 = true := by decide
theorem test_bcdEnc_100_faults :
    stateAfter (running true) 0x02000000000000000064 = some (true, true, 0x01) := by decide
theorem test_rtcDec_noon_of_a_12_hour_chip :
    answers (running false) 0x03000025861002721530 0x0000011E0F180A0607E9 = true := by decide
theorem test_rtcDec_all_ones : answers (running false) 0x030000FFFFFFFFFFFFFF 0x0000FEA5A525A5190875 = true := by decide
theorem test_rtcEnc_month_85_before_2000 :
    answers (running false) 0x04000000000C0F5507C1 0x00000085851501120000 = true := by decide
theorem test_rtcEnc_weekday_minus_2_faults :
    stateAfter (running false) 0x04FFFE00000C0F0107E8 = some (false, true, 0x01) := by decide
theorem test_tempPoll_enters_low :
    answers (running false) 0x050000000001FFFFF447 0x00000000000000000001 = true ∧
      stateAfter (running false) 0x050000000001FFFFF447 = some (true, false, 0x00) := by decide
theorem test_tempPoll_none_reports_0_keeps_low :
    answers (running true) 0x05000000000000000000 0x00000000000000000000 = true ∧
      stateAfter (running true) 0x05000000000000000000 = some (true, false, 0x00) := by decide
theorem test_tempQuery_low : answers (running true) 0x06000000000000000000 0x00000000000000000001 = true := by decide
theorem test_window_hour_22 : answers (running false) 0x070000001E160F0107E8 0x00000000000000000001 = true := by decide
theorem test_window_month_6 : answers (running false) 0x070000001E000F0607E8 0x00000000000000000000 = true := by decide
theorem test_relay_window_not_low : answers (running true) 0x08000000000000000001 0x00000000000000000001 = true := by decide
theorem test_relay_low_overrides : answers (running false) 0x08000000000000000003 0x00000000000000000000 = true := by decide
theorem test_reserved_opcode : stateAfter (running true) 0x42000000000000000000 = some (true, true, 0x02) := by decide
theorem test_refused_keeps_first_cause :
    stateAfter faulted 0x00000000000000000000 = some (true, true, 0x01) ∧
      answers faulted 0x06000000000000000000 0x03000000000000000000 = true := by decide

/-! ## Witnesses: states and operands that meet the hypotheses of each obligation -/

theorem witness_ResetInputClearsAllOfS :
    ({ faulted with inputs := [.reset, .command 0x02000000000000000005] } : State).inputs =
      .reset :: [.command 0x02000000000000000005] ∧ decode 0x02000000000000000005 = .ok (.bcdEnc 5) := ⟨rfl, rfl⟩
theorem witness_StepRunsTheDecodedCommand :
    ((running true).present 0x06000000000000000000).inputs = [.command 0x06000000000000000000] ∧
      ((running true).present 0x06000000000000000000).fault = false ∧
      decode 0x06000000000000000000 = .ok .tempQuery := ⟨rfl, rfl, rfl⟩
theorem witness_FaultedBlockRefusesEveryCommand :
    (faulted.present 0).inputs = [.command 0] ∧ (faulted.present 0).fault = true := ⟨rfl, rfl⟩
theorem witness_ReservedOpcodesFaultIllegalCommand :
    ((running false).present 0x09000000000000000000).inputs = [.command 0x09000000000000000000] ∧
      ((running false).present 0x09000000000000000000).fault = false ∧
      (BitVec.extractLsb' 72 8 (0x00FFFFFFFFFFFFFFFFFF : Command)).toNat = 0 ∧
      (BitVec.extractLsb' 72 8 (0x09000000000000000000 : Command)).toNat = 9 ∧
      (BitVec.extractLsb' 72 8 (0xFF000000000000000000 : Command)).toNat = 255 ∧
      (BitVec.extractLsb' 72 8 (0x01000000000000000000 : Command)).toNat = 1 ∧
      (BitVec.extractLsb' 72 8 (0x08000000000000000000 : Command)).toNat = 8 := ⟨rfl, rfl, rfl, rfl, rfl, rfl, rfl⟩
theorem witness_EveryCommandHasOneOfThreeOutcomes :
    stateAfter (running false) 0x050000000001FFFFF447 = some (true, false, 0x00) ∧
      stateAfter (running false) 0x00000000000000000000 = some (false, true, 0x02) ∧
      stateAfter faulted 0x050000000001FFFFFA88 = some (true, true, 0x01) := by decide
theorem witness_FaultEntryChangesNothingElse :
    (running true).fault = false ∧ (after (running true) 0x04000400000001010834).map (·.fault) = some true := by decide
theorem witness_OnlyResetClearsTheFault :
    step { faulted with inputs := [.reset] } = .next State.reset ∧ faulted.fault = true ∧
      (match step { faulted with inputs := [.overtaken 0] } with | .next t => t.fault | _ => true) = false :=
  ⟨rfl, rfl, rfl⟩
theorem witness_FaultsDoNotNest :
    step (faulted.present 0) = .next { faulted with responses := [.refused] } ∧ faulted.fault = true ∧
      (∀ rest, (faulted.present 0).inputs ≠ .reset :: rest) ∧
      (∀ w rest, (faulted.present 0).inputs ≠ .overtaken w :: rest) :=
  ⟨rfl, rfl, (fun _ h => by cases h), (fun _ _ h => by cases h)⟩
theorem witness_ResetWinsOverAnOutstandingCommand :
    ({ running true with inputs := [.overtaken 0x06000000000000000000] } : State).inputs =
      .overtaken 0x06000000000000000000 :: [] := rfl
theorem witness_EveryStepAnswersANextState :
    State.reset.inputs = [] ∧ ({ faulted with inputs := [.reset] } : State).inputs = .reset :: [] := ⟨rfl, rfl⟩
theorem witness_StepKeepsCauseMatchesFault :
    (running true).causeMatchesFault ∧
      step ((running true).present 0) =
        .next { running true with fault := true, cause := .illegalCommand, responses := [.illegalCommand] } :=
  ⟨⟨fun _ => rfl, fun _ => rfl⟩, rfl⟩
theorem witness_StepKeepsCauseNamesFirstFault :
    ({ faulted with responses := [.refused, .rangeError] } : State).causeNamesFirstFault ∧
      step (State.present { faulted with responses := [.refused, .rangeError] } 0) =
        .next { faulted with responses := [.refused, .refused, .rangeError] } :=
  ⟨fun _ => ⟨1, .rangeError, [], rfl, rfl⟩, rfl⟩
theorem witness_OnlyPollAndQueryReadIsLow :
    BitVec.extractLsb' 72 8 (0x08000000000000000001 : Command) ≠ 0x05 ∧
      BitVec.extractLsb' 72 8 (0x08000000000000000001 : Command) ≠ 0x06 ∧
      step ((running false).present 0x08000000000000000001) = .next { running false with responses := [.ok 1] } :=
  ⟨by decide, by decide, rfl⟩
theorem witness_OutcomeDependsOnSAndTheCommand :
    let s₁ := (running true).present 0x06000000000000000000
    let s₂ := { s₁ with inputs := s₁.inputs ++ [HostInput.reset], responses := [.ok 0], freeCount := 3 }
    s₂.inputs = .command 0x06000000000000000000 :: [HostInput.reset] ∧ s₁.isLow = s₂.isLow ∧ s₁.fault = s₂.fault ∧
      s₁.cause = s₂.cause := ⟨rfl, rfl, rfl, rfl⟩
theorem witness_DecodeOfEncodeIsTheInstruction :
    (Instr.bcdDec 0xFF).wf = true ∧ (Instr.bcdEnc (-32768)).wf = true ∧ (Instr.bcdEnc 32767).wf = true ∧
      (Instr.rtcEnc ⟨65535, 255, 255, 255, 255, 255, -32768⟩).wf = true ∧
      (Instr.rtcEnc ⟨0, 0, 0, 0, 0, 0, 32767⟩).wf = true ∧ (Instr.tempPoll none).wf = true ∧
      (Instr.tempPoll (some 2147483647)).wf = true ∧ (Instr.tempPoll (some (-2147483648))).wf = true ∧
      (Instr.window 255 0).wf = true ∧ (Instr.relay true true).wf = true ∧ Instr.tempQuery.wf = true := by decide
/-- Also of ReencodingClearsExactlyTheIgnoredBits, whose hypothesis is the same. -/
theorem witness_DecodedInstructionsAreWellFormed :
    decode 0x02000000000000008000 = .ok (.bcdEnc (-32768)) ∧ decode 0x050000000000FFFFEC78 = .ok (.tempPoll none) ∧
      decode 0x07FFFFFFFFFFFFFFFFFF = .ok (.window 255 255) := ⟨rfl, rfl, rfl⟩
theorem witness_IgnoredBitsHaveNoEffect :
    Opcode.ofCode (opcodeOf 0x05FFFFFFFE01FFFFF447) = some .tempPoll ∧
      opcodeOf 0x050000000001FFFFF447 = opcodeOf 0x05FFFFFFFE01FFFFF447 ∧
      payloadOf 0x050000000001FFFFF447 &&& usedBits .tempPoll (payloadOf 0x05FFFFFFFE01FFFFF447) =
        payloadOf 0x05FFFFFFFE01FFFFF447 &&& usedBits .tempPoll (payloadOf 0x05FFFFFFFE01FFFFF447) := by decide
/-- Of DecodeBcdIsTotalWithItsRange and RtcDecodeFieldsOtherThanHour. -/
theorem witness_isBcd : isBcd 0x99 ∧ isBcd 0x00 ∧ ¬ isBcd 0x9A ∧ ¬ isBcd 0xA0 := by decide
/-- Also of BcdRoundTripOfValues and BcdEncResult: both ends of the range and the integers next to it. -/
theorem witness_EncodeBcdOrRangeError :
    (0 : Int) ≤ 0 ∧ (99 : Int) ≤ 99 ∧ encodeBcd 0 = .ok 0x00 ∧ encodeBcd 99 = .ok 0x99 ∧
      encodeBcd (-1) = .error .rangeError ∧ encodeBcd 100 = .error .rangeError := ⟨by decide, by decide, rfl, rfl, rfl, rfl⟩
/-- The first hypothesis of each of the eight `…Result` obligations. -/
theorem witness_opcode_hypotheses :
    BitVec.extractLsb' 72 8 (0x010000000000000000FF : Command) = 0x01 ∧
      BitVec.extractLsb' 72 8 (0x0200000000000000FFFF : Command) = 0x02 ∧
      BitVec.extractLsb' 72 8 (0x03000024811503123456 : Command) = 0x03 ∧
      BitVec.extractLsb' 72 8 (0x04000238220C0F0107E8 : Command) = 0x04 ∧
      BitVec.extractLsb' 72 8 (0x050000000001FFFFF254 : Command) = 0x05 ∧
      BitVec.extractLsb' 72 8 (0x06000000000000000000 : Command) = 0x06 ∧
      BitVec.extractLsb' 72 8 (0x070000001E170F0107E8 : Command) = 0x07 ∧
      BitVec.extractLsb' 72 8 (0x08000000000000000001 : Command) = 0x08 := by decide
theorem witness_RtcDecodeFieldsOtherThanHour :
    (rtcDecode ⟨0, 0, 0, 0, 0, 0x7F, 0xFF⟩).year = 2065 ∧ (rtcDecode ⟨0, 0, 0, 0, 0, 0x80, 0⟩).year = 2000 := by decide
theorem witness_RtcDecodeHourByMode :
    ((0x72 : Byte).getLsbD 6 = true ∧ (0x72 : Byte).getLsbD 5 = true) ∧
      ((0x52 : Byte).getLsbD 6 = true ∧ (0x52 : Byte).getLsbD 5 = false) ∧ (0xBF : Byte).getLsbD 6 = false := by decide
/-- Of RtcEncodeRegistersOrRangeError and RtcEncResult: both ends of the domain, just outside it, and both centuries. -/
theorem witness_encodable :
    encodable ⟨1900, 0, 0, 0, 0, 0, -1⟩ ∧ encodable ⟨2099, 99, 99, 99, 99, 99, 254⟩ ∧
      ¬ encodable ⟨1899, 1, 1, 0, 0, 0, 0⟩ ∧ ¬ encodable ⟨2100, 1, 1, 0, 0, 0, 0⟩ ∧
      ¬ encodable ⟨2000, 1, 1, 0, 0, 0, 255⟩ ∧ encodable ⟨1999, 1, 1, 0, 0, 0, 0⟩ ∧
      encodable ⟨2000, 1, 1, 0, 0, 0, 0⟩ := by refine ⟨?_, ?_, ?_, ?_, ?_, ?_, ?_⟩ <;> decide
/-- Each clause at the ends of its range; the fourth is the vector of 95_test_vectors.md 2.4 for month 85. -/
theorem witness_HoursAndMonthsThatReadBackDifferently :
    (rtcEncode ⟨2024, 19, 15, 39, 0, 0, 0⟩).toOption.isSome = true ∧
      (rtcEncode ⟨2024, 20, 15, 40, 0, 0, 0⟩).toOption.isSome = true ∧
      (rtcEncode ⟨2024, 79, 15, 79, 0, 0, 0⟩).toOption.isSome = true ∧
      (rtcEncode ⟨1985, 80, 15, 80, 0, 0, 0⟩).toOption.isSome = true := by decide
theorem witness_RtcRoundTripOfTimes :
    encodable ⟨2099, 19, 99, 39, 99, 99, 254⟩ ∧ encodable ⟨2099, 0, 99, 80, 99, 99, -1⟩ ∧
      CalendarTime.valid ⟨2099, 12, 31, 23, 59, 59, 6⟩ = true ∧
      CalendarTime.valid ⟨1900, 1, 1, 0, 0, 0, 0⟩ = true := by decide
theorem witness_TempPollResult :
    (-3001 : Int) < -3000 ∧ (-1500 : Int) < -1499 ∧ ((-3000 : Int) ≤ -3000 ∧ (-3000 : Int) ≤ -1500) ∧
      ((-3000 : Int) ≤ -1500 ∧ (-1500 : Int) ≤ -1500) := by decide
theorem witness_TransitionsAreStrictAndReported :
    (-3001 : Int) < Config.thresholds.low ∧ Config.thresholds.low ≤ -3000 ∧ Config.thresholds.high < -1499 ∧
      (-1500 : Int) ≤ Config.thresholds.high := by decide
theorem witness_HysteresisBandKeepsTheState :
    Config.thresholds.ordered ∧ Config.thresholds.low ≤ -3000 ∧ (-1500 : Int) ≤ Config.thresholds.high := by decide
theorem witness_LastReadingOutsideTheBandDecides :
    let readings := [some (-3500), none, some (-2000)]
    let s : State := { running false with inputs := readings.map (fun x => HostInput.command (encode (.tempPoll x))) }
    s.fault = false ∧ (∀ x ∈ readings, (Instr.tempPoll x).wf = true) ∧
      s.inputs = readings.map (fun x => HostInput.command (encode (.tempPoll x))) := by decide
/-- Of WritesInAnyOrderStoreTheBlock and TornReadMixesOldAndNew. -/
theorem witness_isWriteOrder : isWriteOrder [0, 1, 2, 3, 4, 5, 6] ∧ isWriteOrder [6, 0, 5, 1, 4, 2, 3] := by decide
/-- The work of a cycle whose RTC holds 2024-01-15 23:30:00, with no time-zone offset. -/
def coldNight (sensor : Except HostError Int) : CycleWork :=
  { rtc := some ⟨0x00, 0x30, 0x23, 0x01, 0x15, 0x81, 0x24⟩, sensor := sensor, instead := none, localTime := id }
theorem witness_CycleDrivesTheRelayFromWindowAndReport :
    (running true).fault = false ∧ (coldNight (.ok (-4000))).rtc = some ⟨0x00, 0x30, 0x23, 0x01, 0x15, 0x81, 0x24⟩ ∧
      readingOf none (coldNight (.ok (-4000))).sensor = .ok (some (-4000)) ∧
      readingOf none (coldNight (.error .sensorAbsent)).sensor = .ok none ∧
      (Instr.window 23 1).wf = true ∧
      (rtcDecode ⟨0x00, 0x30, 0x23, 0x01, 0x15, 0x81, 0x24⟩).hour = 23 := ⟨rfl, rfl, rfl, rfl, by decide, by decide⟩
/-- Also of the third clause: a cycle that stopped. -/
theorem witness_BusFailureEndsTheHost :
    ({ coldNight (.ok 0) with rtc := none } : CycleWork).rtc = none ∧ (running true).fault = false ∧
      (coldNight (.error .hardwareIO)).sensor = .error .hardwareIO ∧
      (stopped (running true) none (.error .hardwareIO)).stop ≠ none := ⟨rfl, rfl, rfl, by decide⟩
theorem witness_FailedRegisterWriteEndsTheSequence :
    ∀ e ∈ [ChipEvent.write 0 0x56, .count ⟨0x57, 0, 0, 1, 1, 1, 0⟩], ∀ k' v' l, e ≠ .writeFailed k' v' l := by
  simp
theorem witness_SettingTheRtcStoresTheTime :
    (running true).fault = false ∧ CalendarTime.valid ⟨2024, 12, 31, 23, 59, 58, 1⟩ = true ∧
      isWriteOrder [6, 5, 4, 3, 2, 1, 0] := by decide
/-- Both ends of the format, just outside it with either choice of the host, and no device. -/
theorem witness_PresentedReadingsFitTheFormat :
    readingOf none (.ok 2147483647) = .ok (some 2147483647) ∧
      readingOf none (.ok (-2147483648)) = .ok (some (-2147483648)) ∧
      readingOf none (.ok 2147483648) = .ok none ∧
      readingOf (some 0x7FFFFFFF) (.ok 2147483648) = .ok (some 2147483647) ∧
      readingOf none (.error .sensorAbsent) = .ok none := ⟨rfl, rfl, rfl, rfl, rfl⟩
theorem witness_PinsFollowSInEveryState :
    (running true).cause = .none ∧ faulted.cause = .rangeError ∧
      ({ faulted with cause := .illegalCommand } : State).cause = .illegalCommand := ⟨rfl, rfl, rfl⟩
theorem witness_TempPollIsTheOnlyWriterOfIsLow :
    exec (.tempPoll (some (-3001))) (running false) = .next { running true with responses := [.ok 1] } ∧
      (running true).isLow ≠ (running false).isLow := ⟨rfl, by decide⟩
/-- Programs P1 and P2 step 5: a low temperature turns the relay off; a missing reading leaves it to the window. -/
theorem test_cycle_relay :
    (controlCycle (coldNight (.ok (-4000))) (running false)).relay = some false ∧
      (controlCycle (coldNight (.error .sensorAbsent)) (running true)).relay = some true ∧
      (controlCycle (coldNight (.error .hardwareIO)) (running true)).relay = none := by decide

end Sys2Proof.Tests
end

section
/-! PROOFS of the family 00_scope.md: the outcomes of a command (O6), the total step (O11), TEMP_POLL (O38). First the
facts about decoding, the encoders, exec and the thermostat's transition that they are assembled from. -/

namespace Sys2Proof

/-! ## Decoding a word by its opcode byte -/

/-- A bit of the payload is the same bit of the command word (R45). -/
theorem getLsbD_payloadOf (w : Command) {j : Nat} (h : j < 72) : (payloadOf w).getLsbD j = w.getLsbD j := by
  simp [payloadOf, h]

/-- A field of the payload is the same field of the command word (R45). -/
theorem extractLsb'_payloadOf (w : Command) {lo n : Nat} (h : lo + n ≤ 72) :
    (payloadOf w).extractLsb' lo n = w.extractLsb' lo n := by
  apply BitVec.eq_of_getLsbD_eq
  intro j hj
  simp only [BitVec.getLsbD_extractLsb', getLsbD_payloadOf w (show lo + j < 72 by omega)]

/-- An assigned opcode byte selects its operation, which takes its operands from the payload (R48, R62). -/
theorem decode_of_opcodeOf {w : Command} {op : Opcode} (h : opcodeOf w = op.code) :
    decode w = .ok (operandsOf op (payloadOf w)) := by
  rw [decode, h, ofCode_code]

namespace Machine

/-! ## When the encoders succeed -/

/-- encode_bcd succeeds on 0 to 99 (R64). -/
theorem encodeBcd_of_mem {v : Int} (h : 0 ≤ v ∧ v ≤ 99) :
    encodeBcd v = .ok ((BitVec.ofInt 8 (v / 10) <<< 4) ||| BitVec.ofInt 8 (v % 10)) := if_neg (by omega)

/-- A year of 1900 to 2099 less its epoch base is a number of two digits (R5, R85). -/
theorem year_sub_epoch_mem {year : Int} (h : 1900 ≤ year ∧ year ≤ 2099) :
    0 ≤ year - (if centuryBit year then Config.epochSet else Config.epochClear) ∧
      year - (if centuryBit year then Config.epochSet else Config.epochClear) ≤ 99 := by
  cases hc : centuryBit year with
  | true =>
    have h2000 : 2000 ≤ year := of_decide_eq_true hc
    rw [if_pos rfl, Config.epochSet]
    omega
  | false =>
    have h2000 : ¬ 2000 ≤ year := of_decide_eq_false hc
    rw [if_neg Bool.false_ne_true, Config.epochClear]
    omega

/-- Every time in the domain of R109 has a register block. -/
theorem exists_rtcEncode_eq_ok {t : CalendarTime} (h : encodable t) : ∃ b, rtcEncode t = .ok b := by
  obtain ⟨hyear, hmonth, hday, hhour, hminute, hsecond, hweekday⟩ := h
  have hmonthReg := (encodeMonth_eq_ok_iff t.year t.month _).mpr ⟨_, encodeBcd_of_mem hmonth, rfl⟩
  have hyearReg : encodeYear t.year = .ok _ := encodeBcd_of_mem (year_sub_epoch_mem hyear)
  exact ⟨⟨_, _, _, _, _, _, _⟩, (rtcEncode_eq_ok_iff t _).mpr
    ⟨encodeBcd_of_mem hsecond, encodeBcd_of_mem hminute, encodeBcd_of_mem hhour, encodeWeekday_of_mem hweekday,
      encodeBcd_of_mem hday, hmonthReg, hyearReg⟩⟩

/-! ## When exec takes a fault, and that a step always answers -/

/-- A step that ends OK is told from one that takes a fault by its response. -/
theorem finish_ne_takeFault (r : Result) (e : BlockError) (s : State) : finish r s ≠ takeFault e s := by
  intro h
  have hresp : Response.ok r :: s.responses = e.response :: s.responses :=
    congrArg State.responses (Host.Outcome.next.inj h)
  cases e <;> cases hresp

/-- BCD_ENC faults on nothing but a value outside 0 to 99 (R66, R109). -/
theorem not_mem_of_execBcdEnc_fault {v : Int} {e : BlockError} {s : State}
    (h : exec (.bcdEnc v) s = takeFault e s) : v < 0 ∨ 99 < v := by
  by_contra hv
  rw [exec, execBcdEnc, encodeBcd_of_mem (by omega)] at h
  exact finish_ne_takeFault _ _ _ h

/-- RTC_ENC faults on nothing but a time that cannot be written (R86, R109). -/
theorem not_encodable_of_execRtcEnc_fault {t : CalendarTime} {e : BlockError} {s : State}
    (h : exec (.rtcEnc t) s = takeFault e s) : ¬ encodable t := by
  intro ht
  obtain ⟨b, hb⟩ := exists_rtcEncode_eq_ok ht
  rw [exec, execRtcEnc, hb] at h
  exact finish_ne_takeFault _ _ _ h

/-- exec answers a next state, whether it completes or faults (R112; log entry 7). -/
theorem exec_next (i : Instr) (s : State) : ∃ t, exec i s = .next t := by
  obtain ⟨_, _, h, _⟩ | ⟨h, _⟩ := exec_cases i s <;> exact ⟨_, h⟩

/-- Every command is answered by a next state (R11, R114, R115). -/
theorem runCommand_exec_next (w : Command) (s : State) : ∃ t, runCommand exec w s = .next t := by
  obtain ⟨_, h⟩ | ⟨_, _, h⟩ | ⟨i, _, _, h⟩ := runCommand_shapes exec w s
  · exact ⟨_, h⟩
  · exact ⟨_, h⟩
  · obtain ⟨t, ht⟩ := exec_next i s
    exact ⟨t, h.trans ht⟩

/-- Every step is answered by a next state. -/
theorem step_next (s : State) : ∃ t, step s = .next t := by
  obtain ⟨_, h⟩ | ⟨_, _, h⟩ | ⟨_, _, _, h⟩ | ⟨w, rest, _, h⟩ := step_shapes s
  · exact ⟨_, h⟩
  · exact ⟨_, h⟩
  · exact ⟨_, h⟩
  · obtain ⟨t, ht⟩ := runCommand_exec_next w (s.withInputs rest)
    exact ⟨t, h.trans ht⟩

/-- With a command at the head of the inputs, the step runs it (R115). -/
theorem step_command {s : State} {w : Command} {rest : List HostInput} (h : s.inputs = .command w :: rest) :
    step s = runCommand exec w (s.withInputs rest) := step_input h

/-! ## The transition on a reading -/

/-- A reading below the band makes the block low, whatever it was (R88). -/
theorem nextIsLow_of_lt_low {th : Thresholds} (ho : th.ordered) (l : Bool) {r : Int} (h : r < th.low) :
    nextIsLow th l r = true := by
  have hr : ¬ r > th.high := by simp only [Thresholds.ordered] at ho; omega
  cases l <;> simp [nextIsLow, h, hr]

/-- A reading above the band makes the block not low, whatever it was (R89). -/
theorem nextIsLow_of_high_lt {th : Thresholds} (ho : th.ordered) (l : Bool) {r : Int} (h : th.high < r) :
    nextIsLow th l r = false := by
  have hr : ¬ r < th.low := by simp only [Thresholds.ordered] at ho; omega
  cases l <;> simp [nextIsLow, h, hr]

/-- A reading in the band, its ends included, keeps the state (R88, R89). -/
theorem nextIsLow_of_mem_band {th : Thresholds} (l : Bool) {r : Int} (h : th.low ≤ r ∧ r ≤ th.high) :
    nextIsLow th l r = l := by
  rw [nextIsLow, if_neg (by omega), if_neg (by omega)]

/-- The two values of a single result bit as words. -/
theorem bitResult_eq_ite (b : Bool) : bitResult b = if b then 1 else 0 := by cases b <;> rfl

/-- TEMP_POLL with a reading, from the state after the transition (R90, R91). -/
theorem exec_tempPoll_some {r : Int} {s : State} {l : Bool} (h : nextIsLow Config.thresholds s.isLow r = l) :
    exec (.tempPoll (some r)) s = .next { s with isLow := l, responses := .ok (if l then 1 else 0) :: s.responses } := by
  rw [exec, execTempPoll, tempPollWith_some, h, bitResult_eq_ite]
  rfl

/-- The operands of opcode `0x05`, in bits of the command word (R53). -/
theorem decode_tempPoll {w : Command} (h : w.extractLsb' 72 8 = 0x05) :
    decode w = .ok (.tempPoll (if w.getLsbD 32 then some (w.extractLsb' 0 32).toInt else none)) := by
  rw [decode_of_opcodeOf (op := .tempPoll) h, operandsOf, unpackReading, getLsbD_payloadOf w (by decide),
    extractLsb'_payloadOf w (by decide)]

/-! ## The obligations -/

/-- Settles O6: the three shapes of running a command, the last of them split by what exec can do. -/
theorem everyCommandHasOneOfThreeOutcomes : Obligations.EveryCommandHasOneOfThreeOutcomes := by
  intro s w rest hin
  rw [step_command hin]
  obtain ⟨hf, hrun⟩ | ⟨hf, ⟨d, hd⟩, hrun⟩ | ⟨i, hf, hd, hrun⟩ := runCommand_shapes exec w (s.withInputs rest)
  · exact ⟨_, hrun, rfl, rfl, .inr (.inr ⟨hf, hf, rfl, rfl, rfl⟩)⟩
  · refine ⟨_, hrun, rfl, rfl, .inr (.inl ⟨hf, rfl, rfl, .inr ⟨rfl, rfl, fun i hi => ?_⟩⟩)⟩
    cases hd.symm.trans hi
  · obtain ⟨r, l, hexec, hlow⟩ | ⟨hexec, hwho⟩ := exec_cases i (s.withInputs rest)
    · refine ⟨_, hrun.trans hexec, rfl, rfl, .inl ⟨hf, hf, rfl, ⟨i, hd⟩, ⟨r, rfl⟩, fun hne => ?_⟩⟩
      obtain ⟨x, rfl⟩ := hlow.resolve_left hne
      exact ⟨x, hd⟩
    · refine ⟨_, hrun.trans hexec, rfl, rfl, .inr (.inl ⟨hf, rfl, rfl, .inl ⟨rfl, rfl, ?_⟩⟩)⟩
      obtain ⟨v, rfl⟩ | ⟨t, rfl⟩ := hwho
      · exact .inl ⟨v, hd, not_mem_of_execBcdEnc_fault hexec⟩
      · exact .inr ⟨t, hd, not_encodable_of_execRtcEnc_fault hexec⟩

/-- Settles O11. -/
theorem everyStepAnswersANextState : Obligations.EveryStepAnswersANextState :=
  ⟨step_next, fun _ => step_idle, fun _ _ hin => step_input hin⟩

/-- Settles O38, by the place of the reading: none, below the band, above it, in it. -/
theorem tempPollResult : Obligations.TempPollResult := by
  have hordered : Config.thresholds.ordered := by decide
  refine ⟨fun _ => decode_tempPoll, fun s => tempPollWith_none Config.thresholds s, fun r s hr => ?_, fun r s hr => ?_,
    fun r s hr => ?_⟩
  · exact exec_tempPoll_some (nextIsLow_of_lt_low hordered _ hr)
  · exact exec_tempPoll_some (nextIsLow_of_high_lt hordered _ hr)
  · exact exec_tempPoll_some (nextIsLow_of_mem_band _ hr)

end Machine
end Sys2Proof
end

section
/-! PROOFS of the family 10_state.md: the invariant of R15 (O14, O13), what a step depends on (O16, O17), reset values
(O1), presented readings (O55) and the pins (O56). First what a step does to `fault` and `cause`, and what exec reads of
the state. -/

namespace Sys2Proof

/-- The opcode byte of a word that decodes is that of the instruction it decodes to (R45, R48). -/
theorem opcodeOf_eq_of_decode {w : Command} {i : Instr} (h : decode w = .ok i) : opcodeOf w = i.opcode.code := by
  obtain ⟨op, hop, -, rfl⟩ := decode_ok h
  rw [operandsOf_opcode, code_of_ofCode hop]

namespace Machine

/-! ## What a step does to `fault` and `cause` -/

/-- A step keeps `fault` and `cause` together, clears both together, or sets both together to a raised error. -/
theorem step_fault_and_cause {s t : State} (h : step s = .next t) :
    (t.fault = s.fault ∧ t.cause = s.cause) ∨ (t.fault = false ∧ t.cause = .none) ∨
      ∃ e : BlockError, t.fault = true ∧ t.cause = e.cause := by
  obtain ⟨-, hs⟩ | ⟨_, -, hs⟩ | ⟨_, _, -, hs⟩ | ⟨w, rest, hin, -⟩ := step_shapes s
  · cases hs.symm.trans h
    exact .inl ⟨rfl, rfl⟩
  · cases hs.symm.trans h
    exact .inr (.inl ⟨rfl, rfl⟩)
  · cases hs.symm.trans h
    exact .inr (.inl ⟨rfl, rfl⟩)
  · obtain ⟨u, hs, -, -, hu⟩ := everyCommandHasOneOfThreeOutcomes s w rest hin
    cases hs.symm.trans h
    obtain ⟨hf, hf', hc, -⟩ | ⟨-, hf', -, ⟨hc, -⟩ | ⟨hc, -⟩⟩ | ⟨hf, hf', hc, -⟩ := hu
    · exact .inl ⟨hf'.trans hf.symm, hc⟩
    · exact .inr (.inr ⟨.rangeError, hf', hc⟩)
    · exact .inr (.inr ⟨.illegalCommand, hf', hc⟩)
    · exact .inl ⟨hf'.trans hf.symm, hc⟩

/-! ## What exec reads of the state -/

/-- How a computed result or a raised error ends the step is the same in every state. -/
theorem finishOrFault_uniform (x : Except BlockError Result) :
    (∃ r, ∀ s, finishOrFault x s = finish r s) ∨ ∃ e, ∀ s, finishOrFault x s = takeFault e s := by
  cases x with
  | ok r => exact .inl ⟨r, finishOrFault_ok r⟩
  | error e => exact .inr ⟨e, finishOrFault_error e⟩

/-- Of the state, the six operations besides TEMP_POLL and TEMP_QUERY read nothing: each ends alike in every state (R24). -/
theorem exec_uniform {i : Instr} (hpoll : i.opcode ≠ .tempPoll) (hquery : i.opcode ≠ .tempQuery) :
    (∃ r, ∀ s, exec i s = finish r s) ∨ ∃ e, ∀ s, exec i s = takeFault e s := by
  cases i with
  | bcdDec b => exact .inl ⟨_, fun _ => rfl⟩
  | bcdEnc v => exact finishOrFault_uniform _
  | rtcDec block => exact .inl ⟨_, fun _ => rfl⟩
  | rtcEnc t => exact finishOrFault_uniform _
  | tempPoll reading => exact absurd rfl hpoll
  | tempQuery => exact absurd rfl hquery
  | window hour month => exact .inl ⟨_, fun _ => rfl⟩
  | relay w l => exact .inl ⟨_, fun _ => rfl⟩

/-- TEMP_POLL, with a reading or with none, from the transition and the report of temp_step (R90). -/
theorem exec_tempPoll (reading : Option Int) (s : State) :
    exec (.tempPoll reading) s =
      .next ((s.setIsLow (tempStep Config.thresholds s.isLow reading).1).deliver
        (.ok (bitResult (tempStep Config.thresholds s.isLow reading).2))) := rfl

/-- Of the state, no operation reads anything but `is_low`: each ends alike in every state with the same `is_low` (R26). -/
theorem exec_uniform_of_isLow (i : Instr) (l : Bool) :
    (∃ r l', ∀ s, s.isLow = l → exec i s = .next ((s.setIsLow l').deliver (.ok r))) ∨
      ∃ e, ∀ s, exec i s = takeFault e s := by
  have hother := exec_uniform (i := i)
  cases i with
  | tempPoll reading => exact .inl ⟨_, _, fun s hs => by rw [exec_tempPoll, hs]⟩
  | tempQuery => exact .inl ⟨_, l, by rintro s rfl; rfl⟩
  | _ =>
    obtain ⟨r, h⟩ | h := hother nofun nofun
    · exact .inl ⟨r, l, by rintro s rfl; exact h s⟩
    · exact .inr h

/-- TEMP_QUERY answers the bit of `is_low` and changes nothing (R93). -/
theorem exec_tempQuery (s : State) :
    exec .tempQuery s = .next { s with responses := .ok (if s.isLow then 1 else 0) :: s.responses } := by
  rw [← bitResult_eq_ite]
  rfl

/-! ## What the host presents -/

/-- Whatever the host presents for a sensor access is carried by a TEMP_POLL command word (R20; log entry 13). -/
theorem readingOf_wf {instead : Option (BitVec 32)} {sensor : Except HostError Int} {reading : Option Int}
    (h : readingOf instead sensor = .ok reading) : (Instr.tempPoll reading).wf = true := by
  cases reading with
  | none => rfl
  | some r => exact readingOf_fits h

/-- A temperature that fits the format is presented as it is (R20). -/
theorem readingOf_of_fits (instead : Option (BitVec 32)) {r : Int} (h : fitsS 31 r = true) :
    readingOf instead (.ok r) = .ok (some r) := if_pos h

/-! ## The obligations -/

/-- Settles O14, by what a step does to `fault` and `cause`: it moves both or neither. -/
theorem stepKeepsCauseMatchesFault : Obligations.StepKeepsCauseMatchesFault := by
  intro s t hs hstep
  unfold State.causeMatchesFault at hs ⊢
  obtain ⟨hf, hc⟩ | ⟨hf, hc⟩ | ⟨e, hf, hc⟩ := step_fault_and_cause hstep
  · rw [hf, hc]
    exact hs
  · simp [hf, hc]
  · simp [hf, hc]

/-- Settles O16: refusal, the fault on a reserved opcode, and the six operations that read nothing of the state. -/
theorem onlyPollAndQueryReadIsLow : Obligations.OnlyPollAndQueryReadIsLow := by
  intro s t w rest l hin hpoll hquery hstep
  rw [step_command hin] at hstep
  rw [step_command (s := { s with isLow := l }) hin]
  obtain ⟨hf, hrun⟩ | ⟨hf, ⟨d, hd⟩, hrun⟩ | ⟨i, hf, hd, hrun⟩ := runCommand_shapes exec w (s.withInputs rest)
  · cases hrun.symm.trans hstep
    exact runCommand_faulted exec hf
  · cases hrun.symm.trans hstep
    exact runCommand_reserved exec hf hd
  · have hop : w.extractLsb' 72 8 = i.opcode.code := opcodeOf_eq_of_decode hd
    rw [runCommand_decoded exec (s := State.withInputs { s with isLow := l } rest) hf hd]
    obtain ⟨r, hexec⟩ | ⟨e, hexec⟩ :=
      exec_uniform (fun h => hpoll (hop.trans (congrArg Opcode.code h)))
        (fun h => hquery (hop.trans (congrArg Opcode.code h)))
    · cases (hrun.trans (hexec _)).symm.trans hstep
      exact hexec _
    · cases (hrun.trans (hexec _)).symm.trans hstep
      exact hexec _

/-- Settles O17: both states take the same test of R115, and exec then ends alike in both. -/
theorem outcomeDependsOnSAndTheCommand : Obligations.OutcomeDependsOnSAndTheCommand := by
  intro s₁ s₂ w rest₁ rest₂ hin₁ hin₂ hlow hfault hcause
  rw [step_command hin₁, step_command hin₂]
  obtain ⟨hf, hrun⟩ | ⟨hf, ⟨d, hd⟩, hrun⟩ | ⟨i, hf, hd, hrun⟩ := runCommand_shapes exec w (s₁.withInputs rest₁)
  all_goals have hf₂ : (s₂.withInputs rest₂).fault = _ := hfault.symm.trans hf
  · exact ⟨_, _, .refused, hrun, runCommand_faulted exec hf₂, rfl, rfl, hlow, hfault, hcause⟩
  · exact ⟨_, _, .illegalCommand, hrun, runCommand_reserved exec hf₂ hd, rfl, rfl, hlow, rfl, rfl⟩
  · have hrun₂ := runCommand_decoded exec hf₂ hd
    obtain ⟨r, l, hexec⟩ | ⟨e, hexec⟩ := exec_uniform_of_isLow i s₁.isLow
    · exact ⟨_, _, .ok r, hrun.trans (hexec _ rfl), hrun₂.trans (hexec _ hlow.symm), rfl, rfl, rfl, hfault, hcause⟩
    · exact ⟨_, _, e.response, hrun.trans (hexec _), hrun₂.trans (hexec _), rfl, rfl, hlow, rfl, rfl⟩

/-- Settles O1: each value is State.reset's or Config.thresholds' own. -/
theorem resetValueOfEveryElement : Obligations.ResetValueOfEveryElement :=
  ⟨rfl, rfl, rfl, rfl, rfl, rfl, rfl, rfl⟩

/-- Settles O13: at reset the cause is NONE and no fault has been taken. -/
theorem resetStateMeetsTheInvariants : Obligations.ResetStateMeetsTheInvariants :=
  ⟨iff_of_true rfl rfl, fun hfault => absurd hfault Bool.false_ne_true⟩

/-- Settles O55. -/
theorem presentedReadingsFitTheFormat : Obligations.PresentedReadingsFitTheFormat := by
  intro instead sensor reading h
  refine ⟨readingOf_wf h, ?_, ?_⟩
  · rintro r rfl hlo hhi
    have hfits : fitsS 31 r = true := by
      simp only [fitsS, Bool.and_eq_true, decide_eq_true_eq]
      omega
    exact (Except.ok.inj ((readingOf_of_fits instead hfits).symm.trans h)).symm
  · rintro rfl
    exact (Except.ok.inj h).symm

/-- Settles O56. -/
theorem pinsFollowSInEveryState : Obligations.PinsFollowSInEveryState :=
  fun s => ⟨rfl, rfl, congrArg Cause.code, congrArg Cause.code, congrArg Cause.code, exec_tempQuery s⟩

end Machine
end Sys2Proof
end

section
/-! PROOFS of the family 20_memory.md: the seven register writes (O48), a bus access that fails in a cycle (O52) or in a
sequence of writes (O53), and setting the RTC to a time (O54). First the chip's registers after writes, the codecs read
back, and the two RTC commands issued. -/

namespace Sys2Proof.Machine

/-! ## The chip's registers after writes -/

/-- A block is the values of its seven registers (R16). -/
theorem regBlock_ext_get {a b : RegBlock} (h : ∀ k, RegBlock.get a k = RegBlock.get b k) : a = b := by
  obtain ⟨a0, a1, a2, a3, a4, a5, a6⟩ := a
  obtain ⟨b0, b1, b2, b3, b4, b5, b6⟩ := b
  simp only [RegBlock.mk.injEq]
  exact ⟨h 0, h 1, h 2, h 3, h 4, h 5, h 6⟩

theorem chipRun_writesInOrder_cons (regs block : RegBlock) (k : Fin 7) (order : List (Fin 7)) :
    chipRun regs (writesInOrder block (k :: order)) =
      chipRun (RegBlock.set regs k (RegBlock.get block k)) (writesInOrder block order) := rfl

/-- After writes of registers of one block, a register is new exactly when it was written (R34, R136). -/
theorem get_chipRun_writesInOrder (regs block : RegBlock) (order : List (Fin 7)) (k : Fin 7) :
    RegBlock.get (chipRun regs (writesInOrder block order)) k =
      if k ∈ order then RegBlock.get block k else RegBlock.get regs k := by
  induction order generalizing regs with
  | nil => rfl
  | cons j order ih =>
    rw [chipRun_writesInOrder_cons, ih, get_set]
    by_cases hj : k = j <;> simp [hj]

/-- A list of events without a failed write happens in full, and the host then goes on with what follows (R34, R37). -/
theorem hostWrites_append {before : List ChipEvent} (h : ∀ e ∈ before, ∀ k v l, e ≠ .writeFailed k v l)
    (regs : RegBlock) (es : List ChipEvent) :
    hostWrites regs (before ++ es) = hostWrites (chipRun regs before) es := by
  induction before generalizing regs with
  | nil => rfl
  | cons e before ih =>
    obtain ⟨he, hbefore⟩ := List.forall_mem_cons.mp h
    cases e with
    | write k v => exact ih hbefore _
    | writeFailed k v left => exact absurd rfl (he k v left)
    | count r => exact ih hbefore _

/-- A list of events without a failed write ends well. -/
theorem hostWrites_of_no_failure {es : List ChipEvent} (h : ∀ e ∈ es, ∀ k v l, e ≠ .writeFailed k v l)
    (regs : RegBlock) : hostWrites regs es = (chipRun regs es, .ok ()) := by
  simpa using hostWrites_append h regs []

/-- The host's plan of writing registers one by one, as the events at the chip (R34). -/
theorem map_event_write (block : RegBlock) (order : List (Fin 7)) :
    (order.map WriteStep.write).map (WriteStep.event block) = writesInOrder block order := by
  rw [List.map_map]
  rfl

theorem writesInOrder_no_failure (block : RegBlock) (order : List (Fin 7)) :
    ∀ e ∈ writesInOrder block order, ∀ k v l, e ≠ .writeFailed k v l := by
  simp [writesInOrder]

/-! ## The codecs read back -/

/-- decode_bcd from the two nibbles (R63). -/
theorem decodeBcd_eq_nibbles (b : Byte) : decodeBcd b = 10 * (b.toNat / 16 : Nat) + (b.toNat % 16 : Nat) := by
  revert b
  decide

/-- encode_bcd succeeds on nothing but 0 to 99, and puts the two digits in the nibbles (R64). -/
theorem toNat_of_encodeBcd {v : Int} {b : Byte} (h : encodeBcd v = .ok b) :
    (0 ≤ v ∧ v ≤ 99) ∧ (b.toNat : Int) = 16 * (v / 10) + v % 10 := by
  have hdigits : ∀ n : Fin 100, (((BitVec.ofInt 8 ((n.val : Int) / 10) <<< 4) |||
      BitVec.ofInt 8 ((n.val : Int) % 10) : Byte).toNat : Int) = 16 * ((n.val : Int) / 10) + (n.val : Int) % 10 := by
    decide
  have hv : 0 ≤ v ∧ v ≤ 99 := by
    by_contra hv
    rw [encodeBcd, if_pos (by omega)] at h
    cases h
  rw [encodeBcd_of_mem hv] at h
  cases h
  lift v to Nat using hv.1
  exact ⟨hv, hdigits ⟨v, by omega⟩⟩

/-- decode_bcd undoes encode_bcd (R67). -/
theorem decodeBcd_of_encodeBcd {v : Int} {b : Byte} (h : encodeBcd v = .ok b) : decodeBcd b = v := by
  obtain ⟨hv, hb⟩ := toNat_of_encodeBcd h
  rw [decodeBcd_eq_nibbles]
  omega

/-- An hour below 40 or from 80 on leaves bit 6 clear, so it reads back in 24-hour mode (R73, R82). -/
theorem decodeHour_of_encodeBcd {v : Int} {b : Byte} (hv : v ≤ 39 ∨ 80 ≤ v) (h : encodeBcd v = .ok b) :
    decodeHour b = v := by
  obtain ⟨hmem, hb⟩ := toNat_of_encodeBcd h
  have hbit : b.getLsbD 6 = false := by
    rw [BitVec.getLsbD, Nat.testBit_eq_decide_div_mod_eq]
    exact decide_eq_false (by omega)
  rw [decodeHour, hbit, if_neg Bool.false_ne_true, decodeBcd_of_encodeBcd h]

/-- The weekday register is the weekday plus 1 (R83). -/
theorem toNat_of_encodeWeekday {v : Int} {b : Byte} (h : encodeWeekday v = .ok b) : (b.toNat : Int) = v + 1 := by
  by_cases hv : -1 ≤ v ∧ v ≤ 254
  · rw [encodeWeekday_of_mem hv] at h
    cases h
    exact ofInt_toNat_of_fits (by simp only [fitsU, Bool.and_eq_true, decide_eq_true_eq]; omega)
  · rw [encodeWeekday, if_pos (by omega)] at h
    cases h

/-- Below `0x20` a month byte and the century bit or-ed into it do not overlap (R76, R77, R85). -/
theorem month_and_century_apart {m : Byte} (h : m.toNat < 32) (c : Bool) :
    (m ||| (BitVec.ofBool c).setWidth 8 <<< 7) &&& 0x1F = m ∧
      (m ||| (BitVec.ofBool c).setWidth 8 <<< 7).getLsbD 7 = c := by
  revert m c
  decide

/-- The packer read back: hours below 40 or from 80 on and months to 19 (R146). -/
theorem rtcDecode_of_rtcEncode {t : CalendarTime} {b : RegBlock} (hmonth : t.month ≤ 19)
    (hhour : t.hour ≤ 39 ∨ 80 ≤ t.hour) (h : rtcEncode t = .ok b) : rtcDecode b = t := by
  obtain ⟨hsecond, hminute, hhourReg, hweekday, hday, hmonthReg, hyear⟩ := (rtcEncode_eq_ok_iff t b).mp h
  obtain ⟨m, hm, hcentury⟩ := (encodeMonth_eq_ok_iff t.year t.month _).mp hmonthReg
  have hsmall : m.toNat < 32 := by
    have := toNat_of_encodeBcd hm
    omega
  obtain ⟨hmask, hbit⟩ := month_and_century_apart hsmall (centuryBit t.year)
  rw [← hcentury] at hmask hbit
  have hyearBack : decodeYear b.monthCentury b.year = t.year := by
    rw [decodeYear, hbit, decodeBcd_of_encodeBcd hyear, sub_add_cancel]
  rw [rtcDecode, hyearBack, hmask, decodeBcd_of_encodeBcd hm, decodeBcd_of_encodeBcd hday,
    decodeHour_of_encodeBcd hhour hhourReg, decodeBcd_of_encodeBcd hminute, decodeBcd_of_encodeBcd hsecond,
    toNat_of_encodeWeekday hweekday, add_sub_cancel_right]

/-- A valid time of the years to 2099 can be written (R19, R109). -/
theorem encodable_of_valid {t : CalendarTime} (h : t.valid = true) (hyear : t.year ≤ 2099) : encodable t := by
  simp only [CalendarTime.valid, Bool.and_eq_true, decide_eq_true_eq] at h
  unfold encodable
  omega

/-- A time that can be written is carried by a command word (R18, R109). -/
theorem fits_of_encodable {t : CalendarTime} (h : encodable t) : t.fits = true := by
  unfold encodable at h
  simp only [CalendarTime.fits, fitsU, fitsS, Bool.and_eq_true, decide_eq_true_eq]
  omega

/-- A valid time of the years to 2099 has a register block, which reads back as that time (R146). -/
theorem exists_rtcEncode_of_valid {t : CalendarTime} (h : t.valid = true) (hyear : t.year ≤ 2099) :
    ∃ b, rtcEncode t = .ok b ∧ rtcDecode b = t := by
  obtain ⟨b, hb⟩ := exists_rtcEncode_eq_ok (encodable_of_valid h hyear)
  simp only [CalendarTime.valid, Bool.and_eq_true, decide_eq_true_eq] at h
  exact ⟨b, hb, rtcDecode_of_rtcEncode (by omega) (by omega) hb⟩

/-! ## The two RTC commands issued -/

theorem decode_encode_rtcDec (b : RegBlock) : decode (encode (.rtcDec b)) = .ok (.rtcDec b) :=
  (decode_append .rtcDec _).trans (congrArg (fun x => Except.ok (Instr.rtcDec x)) (fields_packBlock b).1)

theorem decode_encode_rtcEnc {t : CalendarTime} (h : t.fits = true) :
    decode (encode (.rtcEnc t)) = .ok (.rtcEnc t) :=
  (decode_append .rtcEnc _).trans (congrArg (fun x => Except.ok (Instr.rtcEnc x)) (unpackTime_packTime t h))

/-- RTC_DEC issued to a block not faulted (R78). -/
theorem issue_rtcDec {s : State} (hf : s.fault = false) (regs : RegBlock) :
    issue (.rtcDec regs) s =
      (s.deliver (.ok (packTime (rtcDecode regs))), some (packTime (rtcDecode regs))) :=
  issue_ok hf rfl (decode_encode_rtcDec regs) rfl rfl

/-- RTC_ENC of a time that has a register block, issued to a block not faulted (R86). -/
theorem issue_rtcEnc {s : State} {t : CalendarTime} {b : RegBlock} (hf : s.fault = false) (hfits : t.fits = true)
    (hb : rtcEncode t = .ok b) :
    issue (.rtcEnc t) s = (s.deliver (.ok (zext72 (packBlock b))), some (zext72 (packBlock b))) := by
  have hexec : exec (.rtcEnc t) s = .next (s.deliver (.ok (zext72 (packBlock b)))) := by
    rw [exec, execRtcEnc, hb]
    rfl
  exact issue_ok hf hfits (decode_encode_rtcEnc hfits) hexec rfl

/-- Setting the RTC with a plan of writes: RTC_ENC's one response, and the writes of the time's block (R34, R86). -/
theorem setRtc_writes {s : State} {t : CalendarTime} {b : RegBlock} (hf : s.fault = false) (hfits : t.fits = true)
    (hb : rtcEncode t = .ok b) (order : List (Fin 7)) (regs : RegBlock) :
    setRtc t (order.map WriteStep.write) regs s =
      { block := s.deliver (.ok (zext72 (packBlock b)))
        rtc := chipRun regs (writesInOrder b order), stop := none } := by
  rw [setRtc, issue_rtcEnc hf hfits hb]
  simp only [(fields_packBlock b).1, map_event_write, hostWrites_of_no_failure (writesInOrder_no_failure b order)]

/-! ## A cycle whose bus access fails -/

/-- The clock sync of a block not faulted: one RTC_DEC, and the clock set from its result (R131). -/
theorem syncClock_some {s : State} (hf : s.fault = false) (regs : RegBlock) :
    syncClock (some regs) s =
      { block := s.deliver (.ok (packTime (rtcDecode regs)))
        clock := some (unpackTime (packTime (rtcDecode regs))), relay := none, stop := none } := by
  rw [syncClock, issue_rtcDec hf]

/-- A failed RTC read stops the cycle before any command (R110). -/
theorem controlCycle_of_rtc_failed {work : CycleWork} (h : work.rtc = none) (s : State) :
    controlCycle work s = stopped s none (.error .hardwareIO) := by
  rw [controlCycle, h]
  rfl

/-- A failed sensor access stops the cycle after RTC_DEC (R110, R132). -/
theorem controlCycle_of_sensor_failed {work : CycleWork} {regs : RegBlock} {s : State} (hf : s.fault = false)
    (hrtc : work.rtc = some regs) (hsensor : work.sensor = .error .hardwareIO) :
    controlCycle work s =
      stopped (s.deliver (.ok (packTime (rtcDecode regs)))) (some (unpackTime (packTime (rtcDecode regs))))
        (.error .hardwareIO) := by
  rw [controlCycle, hrtc, syncClock_some hf]
  simp only [pollAndDecide, readingOf, hsensor]

/-- A loop that has stopped runs no later cycle (R110). -/
theorem controlLoop_of_stopped {e : CycleEnd} (h : e.stop ≠ none) (works : List CycleWork) :
    controlLoop works e = e := by
  cases works with
  | nil => rfl
  | cons work works =>
    obtain ⟨why, hwhy⟩ := Option.ne_none_iff_exists'.mp h
    simp only [controlLoop, hwhy]

/-! ## The obligations -/

/-- Settles O48, register by register: each is in the order, so each is written. -/
theorem writesInAnyOrderStoreTheBlock : Obligations.WritesInAnyOrderStoreTheBlock := by
  intro regs block order horder
  refine regBlock_ext_get fun k => ?_
  have hk : k ∈ order := horder.mem_iff.mpr (List.mem_finRange k)
  rw [get_chipRun_writesInOrder, if_pos hk]

/-- Settles O52: the cycle's end with either access failed, and the loop after a stop. -/
theorem busFailureEndsTheHost : Obligations.BusFailureEndsTheHost := by
  refine ⟨fun work s hrtc => ?_, fun work regs s hf hrtc hsensor => ?_,
    fun works e h => controlLoop_of_stopped h works⟩
  · rw [controlCycle_of_rtc_failed hrtc]
    exact ⟨rfl, rfl, rfl⟩
  · rw [controlCycle_of_sensor_failed hf hrtc hsensor]
    exact ⟨rfl, rfl, rfl, rfl⟩

/-- Settles O53: the writes before the failure run as a prefix, and the failure then ends the sequence. -/
theorem failedRegisterWriteEndsTheSequence : Obligations.FailedRegisterWriteEndsTheSequence := by
  intro regs left before after k v hbefore
  have hfailed : hostWrites regs (before ++ .writeFailed k v left :: after) =
      (chipRun left (after.filter ChipEvent.isCount), .error .hardwareIO) := by
    rw [hostWrites_append hbefore, hostWrites_writeFailed]
  refine ⟨hostWrites_of_no_failure hbefore regs, congrArg Prod.snd hfailed, (congrArg Prod.fst hfailed).trans ?_⟩
  exact congrArg (chipRun left) (List.filter_congr fun e _ => by cases e <;> rfl)

/-- Settles O54: RTC_ENC answers the block of the time, the writes store it (O48), and it reads back (R146). -/
theorem settingTheRtcStoresTheTime : Obligations.SettingTheRtcStoresTheTime := by
  intro t order regs s hf hvalid hyear horder
  obtain ⟨b, hb, hback⟩ := exists_rtcEncode_of_valid hvalid hyear
  rw [setRtc_writes hf (fits_of_encodable (encodable_of_valid hvalid hyear)) hb,
    writesInAnyOrderStoreTheBlock regs b order horder]
  exact ⟨rfl, hback, rfl, hf, rfl⟩

end Sys2Proof.Machine
end

section
/-! PROOFS of the family 30_encoding.md: encode and decode are inverse on well-formed instructions (O18), what the ignored
bits do (O19 to O21), the opcode map and the reserved opcodes (O22, O5, O23), the response words (O12), and the result of
each operation (O28, O29, O32, O35, O39, O45, O47, O57). First the operands of a payload, the opcode byte of a word, and
the results as words. -/

namespace Sys2Proof

/-! ## The operands of a payload -/

/-- The operands of an instruction's own payload are those of the instruction (R49 to R56). -/
theorem operandsOf_payload {i : Instr} (h : i.wf = true) : operandsOf i.opcode i.payload = i := by
  cases i with
  | bcdDec b => exact congrArg Instr.bcdDec (extract_zext72 b (by decide))
  | bcdEnc v =>
    have hfield : (zext72 (BitVec.ofInt 16 v)).extractLsb' 0 16 = BitVec.ofInt 16 v := extract_zext72 _ (by decide)
    exact congrArg Instr.bcdEnc ((congrArg BitVec.toInt hfield).trans (ofInt_toInt_of_fits h))
  | rtcDec block => exact congrArg Instr.rtcDec (fields_packBlock block).1
  | rtcEnc t => exact congrArg Instr.rtcEnc (unpackTime_packTime t h)
  | tempPoll reading =>
    cases reading with
    | none => rfl
    | some r => exact congrArg Instr.tempPoll (Machine.unpackReading_packReading r h)
  | tempQuery => rfl
  | window hour month =>
    simp only [Instr.wf, Bool.and_eq_true] at h
    obtain ⟨-, hmonth, -, hhour, -⟩ := fields_packTime
      { year := 0, month := month, day := 0, hour := hour, minute := 0, second := 0, weekday := 0 }
    simp only [Instr.opcode, Instr.payload, operandsOf, u8At, hmonth, hhour, ofInt_toNat_of_fits h.1,
      ofInt_toNat_of_fits h.2]
  | relay w l => cases w <;> cases l <;> rfl

/-- Whatever the payload, each operand fits the field it was read from (R49 to R56). -/
theorem operandsOf_wf (op : Opcode) (p : Payload) : (operandsOf op p).wf = true := by
  cases op with
  | bcdEnc => exact fitsS_toInt (n := 15) _
  | rtcEnc =>
    simp only [operandsOf, Instr.wf, CalendarTime.fits, Bool.and_eq_true]
    exact ⟨⟨⟨⟨⟨⟨fitsU_toNat _, fitsU_toNat _⟩, fitsU_toNat _⟩, fitsU_toNat _⟩, fitsU_toNat _⟩, fitsU_toNat _⟩,
      fitsS_toInt (n := 15) _⟩
  | tempPoll =>
    simp only [operandsOf, unpackReading]
    split
    · exact fitsS_toInt (n := 31) _
    · rfl
  | window =>
    simp only [operandsOf, Instr.wf, Bool.and_eq_true]
    exact ⟨fitsU_toNat _, fitsU_toNat _⟩
  | bcdDec | rtcDec | tempQuery | relay => rfl

/-- The low `n` bits of a payload with 0 above are the payload under a mask of `n` ones. -/
theorem zext72_extractLsb'_zero (p : Payload) (n : Nat) :
    zext72 (p.extractLsb' 0 n) = p &&& zext72 (BitVec.allOnes n) := by
  apply BitVec.eq_of_getLsbD_eq
  intro j hj
  simp only [BitVec.getLsbD_and, getLsbD_zext72, BitVec.getLsbD_extractLsb', BitVec.getLsbD_allOnes, Nat.zero_add, hj,
    decide_true, Bool.true_and]
  exact Bool.and_comm _ _

/-- The seven registers of a payload are its low 56 bits (R17, R51). -/
theorem packBlock_unpackBlock (p : Payload) : packBlock (unpackBlock p) = p.extractLsb' 0 56 := by
  rw [packBlock, unpackBlock]
  repeat rw [BitVec.extractLsb'_append_extractLsb'_eq_extractLsb' (by decide)]

/-- A bit as a field of width 1. -/
theorem ofBool_getLsbD_eq_extractLsb' {n : Nat} (b : BitVec n) (j : Nat) :
    BitVec.ofBool (b.getLsbD j) = b.extractLsb' j 1 := by
  apply BitVec.eq_of_getLsbD_eq
  intro k hk
  simp [show k = 0 by omega]

/-- The reading of a payload packed again: its low 33 bits, or nothing when bit 32 is 0 (R53, R58). -/
theorem packReading_unpackReading (p : Payload) :
    packReading (unpackReading p) = p &&& usedBits .tempPoll p := by
  cases hbit : p.getLsbD 32 with
  | true =>
    have hfield : 1#1 ++ p.extractLsb' 0 32 = p.extractLsb' 0 33 := by
      rw [show 1#1 = p.extractLsb' 32 1 by rw [← ofBool_getLsbD_eq_extractLsb', hbit]; rfl,
        BitVec.extractLsb'_append_extractLsb'_eq_extractLsb' (by decide)]
    simp only [unpackReading, usedBits, hbit, if_true, packReading, BitVec.ofInt_toInt, hfield,
      zext72_extractLsb'_zero]
    rfl
  | false =>
    have hmasked : p &&& BitVec.twoPow 72 32 = 0 := by
      rw [BitVec.and_twoPow, hbit, if_neg Bool.false_ne_true]
      rfl
    simp only [unpackReading, usedBits, hbit, Bool.false_eq_true, if_false, packReading]
    exact hmasked.symm

/-- The two fields of a `CT72` that WINDOW reads, packed again with the others 0 (R55, R58). -/
theorem packTime_hour_month (p : Payload) :
    packTime { year := 0, month := u8At p 16, day := 0, hour := u8At p 32, minute := 0, second := 0, weekday := 0 } =
      p &&& usedBits .window p := by
  rw [← packTime_unpackTime (p &&& usedBits .window p)]
  have hones : 255#8 = BitVec.allOnes 8 := by decide
  simp only [unpackTime, u8At, usedBits, BitVec.extractLsb'_and, BitVec.reduceExtractLsb', BitVec.and_zero, hones,
    BitVec.and_allOnes, BitVec.toNat_zero, Nat.cast_zero, BitVec.toInt_zero]

/-- Packing the operands read from a payload gives back the bits the operation reads, and 0 elsewhere (R58). -/
theorem payload_operandsOf (op : Opcode) (p : Payload) : (operandsOf op p).payload = p &&& usedBits op p := by
  cases op with
  | bcdDec => exact zext72_extractLsb'_zero p 8
  | bcdEnc => exact (congrArg zext72 (BitVec.ofInt_toInt ..)).trans (zext72_extractLsb'_zero p 16)
  | rtcDec => exact (congrArg zext72 (packBlock_unpackBlock p)).trans (zext72_extractLsb'_zero p 56)
  | rtcEnc => exact (packTime_unpackTime p).trans BitVec.and_allOnes.symm
  | tempPoll => exact packReading_unpackReading p
  | tempQuery => exact BitVec.and_zero.symm
  | window => exact packTime_hour_month p
  | relay =>
    have hfield : BitVec.ofBool (p.getLsbD 1) ++ BitVec.ofBool (p.getLsbD 0) = p.extractLsb' 0 2 := by
      simp only [ofBool_getLsbD_eq_extractLsb']
      exact BitVec.extractLsb'_append_extractLsb'_eq_extractLsb' rfl
    exact (congrArg zext72 hfield).trans (zext72_extractLsb'_zero p 2)

/-- Two payloads that agree on the bits an operation reads from one of them have the same such bits: only TEMP_POLL's
depend on the payload, by `P[32]`, which is one of them (R53). -/
theorem usedBits_congr {op : Opcode} {p p' : Payload} (h : p' &&& usedBits op p = p &&& usedBits op p) :
    usedBits op p' = usedBits op p := by
  cases op with
  | tempPoll =>
    have hbit : p'.getLsbD 32 = p.getLsbD 32 := by
      have hused : (usedBits .tempPoll p).getLsbD 32 = true := by
        simp only [usedBits]
        split <;> rfl
      simpa only [BitVec.getLsbD_and, hused, Bool.and_true] using congrArg (·.getLsbD 32) h
    simp only [usedBits, hbit]
  | bcdDec | bcdEnc | rtcDec | rtcEnc | tempQuery | window | relay => rfl

/-- Two payloads that agree on the bits an operation reads give the same operands (R58): each is packed again alike. -/
theorem operandsOf_congr {op : Opcode} {p p' : Payload} (h : p' &&& usedBits op p = p &&& usedBits op p) :
    operandsOf op p' = operandsOf op p := by
  have hpayload : (operandsOf op p').payload = (operandsOf op p).payload := by
    rw [payload_operandsOf, payload_operandsOf, usedBits_congr h, h]
  have hback := fun q => operandsOf_payload (operandsOf_wf op q)
  simp only [operandsOf_opcode] at hback
  rw [← hback p', hpayload, hback p]

/-! ## The opcode byte of a word -/

/-- The codes without an operation are 0 and those from 9 up (R57). -/
theorem ofCode_eq_none_iff (c : Byte) : Opcode.ofCode c = none ↔ c.toNat = 0 ∨ 9 ≤ c.toNat := by
  revert c
  decide

/-- A word without an operation decodes to an error (R57, R62). -/
theorem decode_of_reserved {w : Command} (h : Opcode.ofCode (opcodeOf w) = none) :
    decode w = .error (.reservedOpcode (opcodeOf w)) := by
  rw [decode, h]

/-- The words that decode to no instruction are those whose opcode is reserved (R57, R62). -/
theorem decode_ne_ok_iff (w : Command) : (∀ i, decode w ≠ .ok i) ↔ Opcode.ofCode (opcodeOf w) = none := by
  constructor
  · intro h
    cases hop : Opcode.ofCode (opcodeOf w) with
    | none => rfl
    | some op => exact absurd (decode_of_opcodeOf (code_of_ofCode hop)) (h _)
  · intro h i hi
    cases (decode_of_reserved h).symm.trans hi

/-- A word decodes to an instruction of an operation exactly when it has that operation's opcode byte (R48). -/
theorem decode_opcode_iff (w : Command) (op : Opcode) :
    (∃ i, decode w = .ok i ∧ i.opcode = op) ↔ opcodeOf w = op.code := by
  constructor
  · rintro ⟨i, hi, rfl⟩
    exact opcodeOf_eq_of_decode hi
  · intro h
    exact ⟨_, decode_of_opcodeOf h, operandsOf_opcode _ _⟩

/-- Under the mask, a word is its opcode byte over zeros, so mask and match compare the opcode byte (R48). -/
theorem and_mask_eq_pattern_iff (w : Command) (op : Opcode) :
    w &&& Opcode.mask = op.pattern ↔ opcodeOf w = op.code := by
  have hmasked : w &&& Opcode.mask = opcodeOf w ++ (0 : Payload) := by
    conv_lhs => rw [command_eq_append w]
    exact append_and_mask _ _
  rw [hmasked, Opcode.pattern]
  constructor
  · intro h
    rw [← opcodeOf_append (opcodeOf w) 0, ← opcodeOf_append op.code 0]
    exact congrArg opcodeOf h
  · exact fun h => congrArg (· ++ (0 : Payload)) h

namespace Machine

/-! ## Results as words -/

/-- A field with 0 above it is its value as a word of 72 bits (R47). -/
theorem zext72_eq_ofInt {n : Nat} (b : BitVec n) : zext72 b = BitVec.ofInt 72 b.toNat := by
  rw [BitVec.ofInt_natCast, BitVec.ofNat_toNat, zext72]

/-- decode_bcd of any byte is 0 to 165 (R63). -/
theorem decodeBcd_mem (b : Byte) : 0 ≤ decodeBcd b ∧ decodeBcd b ≤ 165 := by
  rw [decodeBcd_eq_nibbles]
  omega

/-- The hour of any hours register is 0 to 177 (R73). -/
theorem decodeHour_mem (h : Byte) : 0 ≤ decodeHour h ∧ decodeHour h ≤ 177 := by
  have hwhole := decodeBcd_mem h
  have hlow := decodeBcd_mem (h &&& 0x1F)
  unfold decodeHour
  split
  · split <;> omega
  · omega

/-- Every field of a decoded time fits its place in a `CT72` (R78). -/
theorem rtcDecode_fits (b : RegBlock) : (rtcDecode b).fits = true := by
  have hsecond := decodeBcd_mem b.seconds
  have hminute := decodeBcd_mem b.minutes
  have hhour := decodeHour_mem b.hours
  have hday := decodeBcd_mem b.date
  have hmonth := decodeBcd_mem (b.monthCentury &&& 0x1F)
  have hyear := decodeBcd_mem b.year
  have hepoch : decodeYear b.monthCentury b.year = decodeBcd b.year + 2000 ∨
      decodeYear b.monthCentury b.year = decodeBcd b.year + 1900 := by
    unfold decodeYear
    split
    · exact .inl rfl
    · exact .inr rfl
  simp only [CalendarTime.fits, fitsU, fitsS, Bool.and_eq_true, decide_eq_true_eq]
  simp only [rtcDecode]
  omega

/-- encode_bcd raises RangeError on everything outside 0 to 99 (R64). -/
theorem encodeBcd_of_not_mem {v : Int} (h : v < 0 ∨ 99 < v) : encodeBcd v = .error .rangeError := if_pos h

/-- A weekday with a register is -1 to 254 (R83). -/
theorem mem_of_encodeWeekday {v : Int} {b : Byte} (h : encodeWeekday v = .ok b) : -1 ≤ v ∧ v ≤ 254 := by
  have := toNat_of_encodeWeekday h
  omega

/-- A year with a register is 1900 to 2099 (R85). -/
theorem mem_of_encodeYear {year : Int} {b : Byte} (h : encodeYear year = .ok b) : 1900 ≤ year ∧ year ≤ 2099 := by
  obtain ⟨hmem, -⟩ := toNat_of_encodeBcd h
  split at hmem
  · simp only [Config.epochSet] at hmem
    omega
  · simp only [Config.epochClear] at hmem
    omega

/-- The packer succeeds on nothing but the times in the domain of R109. -/
theorem encodable_of_rtcEncode {t : CalendarTime} {b : RegBlock} (h : rtcEncode t = .ok b) : encodable t := by
  obtain ⟨hsecond, hminute, hhour, hweekday, hday, hmonthReg, hyear⟩ := (rtcEncode_eq_ok_iff t b).mp h
  obtain ⟨m, hmonth, -⟩ := (encodeMonth_eq_ok_iff t.year t.month _).mp hmonthReg
  exact ⟨mem_of_encodeYear hyear, (toNat_of_encodeBcd hmonth).1, (toNat_of_encodeBcd hday).1,
    (toNat_of_encodeBcd hhour).1, (toNat_of_encodeBcd hminute).1, (toNat_of_encodeBcd hsecond).1,
    mem_of_encodeWeekday hweekday⟩

/-- Outside that domain the packer raises RangeError (R81, R109). -/
theorem rtcEncode_of_not_encodable {t : CalendarTime} (h : ¬ encodable t) : rtcEncode t = .error .rangeError := by
  cases hr : rtcEncode t with
  | ok b => exact absurd (encodable_of_rtcEncode hr) h
  | error e => rw [rtcEncode_error hr]

/-- The words the port may show for a response that is not OK are those with its status (R47). -/
theorem shows_error_iff {r : Response} (h : ∀ v, r ≠ .ok v) (w : BitVec 80) :
    r.shows w = true ↔ w.extractLsb' 72 8 = r.status := by
  cases r with
  | ok v => exact absurd rfl (h v)
  | rangeError | illegalCommand | refused => simp [Response.shows]

/-- The one word the port may show for an OK response (R46, R47). -/
theorem shows_ok_iff (v : Result) (w : BitVec 80) : Response.shows (.ok v) w = true ↔ w = (0x00 : Byte) ++ v := by
  simp only [Response.shows, Response.status, Bool.and_eq_true, beq_iff_eq]
  constructor
  · rintro ⟨hstatus, hresult⟩
    rw [← hstatus, ← hresult]
    exact command_eq_append w
  · rintro rfl
    exact ⟨opcodeOf_append _ v, payloadOf_append _ v⟩

/-! ## The obligations -/

/-- Settles O18: decoding takes the operands of the payload that encoding made. -/
theorem decodeOfEncodeIsTheInstruction : Obligations.DecodeOfEncodeIsTheInstruction := by
  intro i hwf
  rw [encode, decode_append, operandsOf_payload hwf]

/-- Settles O5: the reserved opcodes are those without an operation, and the step then takes the fault. -/
theorem reservedOpcodesFaultIllegalCommand : Obligations.ReservedOpcodesFaultIllegalCommand := by
  refine ⟨fun w => (ofCode_eq_none_iff _).symm.trans (decode_ne_ok_iff w).symm, fun s w rest hin hf hreserved => ?_⟩
  rw [step_command hin]
  exact runCommand_reserved exec hf (decode_of_reserved ((ofCode_eq_none_iff _).mpr hreserved))

/-- Settles O19. -/
theorem decodedInstructionsAreWellFormed : Obligations.DecodedInstructionsAreWellFormed := by
  intro w i h
  obtain ⟨op, -, -, rfl⟩ := decode_ok h
  exact operandsOf_wf op _

/-- Settles O20, opcode byte and payload apart. -/
theorem reencodingClearsExactlyTheIgnoredBits : Obligations.ReencodingClearsExactlyTheIgnoredBits := by
  intro w i h
  obtain ⟨op, -, hw, rfl⟩ := decode_ok h
  have hcode : op.code &&& 0xFF = op.code := by cases op <;> rfl
  rw [operandsOf_opcode, encode, operandsOf_opcode, payload_operandsOf]
  conv_rhs => lhs; rw [hw]
  exact (congrArg (· ++ _) hcode.symm).trans BitVec.and_append.symm

/-- Settles O21: the two words decode to the same instruction. -/
theorem ignoredBitsHaveNoEffect : Obligations.IgnoredBitsHaveNoEffect := by
  intro op w w' hop hopcode hused s rest
  have hdecode : decode w' = decode w := by
    rw [decode_of_opcodeOf (code_of_ofCode hop), decode_of_opcodeOf (hopcode.trans (code_of_ofCode hop)),
      operandsOf_congr hused]
  rw [step_command (s := { s with inputs := .command w' :: rest }) rfl,
    step_command (s := { s with inputs := .command w :: rest }) rfl, runCommand, runCommand, hdecode]
  rfl

/-- Settles O22: both sides compare the opcode byte. -/
theorem opcodeMapSelectsTheOperation : Obligations.OpcodeMapSelectsTheOperation :=
  ⟨fun w op => (decode_opcode_iff w op).trans (and_mask_eq_pattern_iff w op).symm, by decide⟩

/-- Settles O29, by the domain of encode_bcd. -/
theorem bcdEncResult : Obligations.BcdEncResult := by
  refine ⟨fun w hop => ?_, fun v s => ⟨fun hv => ?_, fun hv => ?_⟩⟩
  · rw [decode_of_opcodeOf (op := .bcdEnc) hop, operandsOf, extractLsb'_payloadOf w (by decide)]
  · obtain ⟨b, hb⟩ : ∃ b, encodeBcd v = .ok b := ⟨_, encodeBcd_of_mem hv⟩
    have hword : zext72 b = BitVec.ofInt 72 (16 * (v / 10) + v % 10) := by
      rw [zext72_eq_ofInt, (toNat_of_encodeBcd hb).2]
    rw [exec, execBcdEnc, hb, ← hword]
    rfl
  · rw [exec, execBcdEnc, encodeBcd_of_not_mem hv]
    rfl

/-- Settles O32: the result unpacks to the decoded time, whose fields all fit. -/
theorem rtcDecResult : Obligations.RtcDecResult := by
  refine ⟨fun w hop => ?_, fun b s => ⟨packTime (rtcDecode b), rfl, ?_⟩⟩
  · rw [decode_of_opcodeOf (op := .rtcDec) hop, operandsOf, unpackBlock]
    simp only [extractLsb'_payloadOf w, Nat.reduceAdd, Nat.reduceLeDiff]
  · have hback := unpackTime_packTime (rtcDecode b) (rtcDecode_fits b)
    exact ⟨congrArg CalendarTime.year hback, congrArg CalendarTime.month hback, congrArg CalendarTime.day hback,
      congrArg CalendarTime.hour hback, congrArg CalendarTime.minute hback, congrArg CalendarTime.second hback,
      congrArg CalendarTime.weekday hback⟩

/-- Settles O35, by the domain of the packer; the result unpacks to the block. -/
theorem rtcEncResult : Obligations.RtcEncResult := by
  refine ⟨fun w hop => ?_, fun t s => ⟨fun ht => ?_, fun ht => ?_⟩⟩
  · rw [decode_of_opcodeOf (op := .rtcEnc) hop, operandsOf, unpackTime]
    simp only [u8At, extractLsb'_payloadOf w, Nat.reduceAdd, Nat.reduceLeDiff]
  · obtain ⟨b, hb⟩ := exists_rtcEncode_eq_ok ht
    obtain ⟨hblock, habove⟩ := fields_packBlock b
    refine ⟨b, zext72 (packBlock b), hb, by rw [exec, execRtcEnc, hb]; rfl, ?_⟩
    exact ⟨congrArg RegBlock.seconds hblock, congrArg RegBlock.minutes hblock, congrArg RegBlock.hours hblock,
      congrArg RegBlock.dayOfWeek hblock, congrArg RegBlock.date hblock, congrArg RegBlock.monthCentury hblock,
      congrArg RegBlock.year hblock, habove⟩
  · rw [exec, execRtcEnc, rtcEncode_of_not_encodable ht]
    rfl

/-- Settles O57; that no other operation writes `is_low` is in exec_cases. -/
theorem tempPollIsTheOnlyWriterOfIsLow : Obligations.TempPollIsTheOnlyWriterOfIsLow := by
  refine ⟨fun _ => decode_tempPoll, fun th reading s => ?_, fun i s t hexec hne => ?_⟩
  · rw [← bitResult_eq_ite]
    rfl
  · obtain ⟨r, l, hok, hlow⟩ | ⟨hfault, -⟩ := exec_cases i s
    · cases hok.symm.trans hexec
      exact hlow.resolve_left hne
    · cases hfault.symm.trans hexec
      exact absurd rfl hne

/-- Settles O12. -/
theorem responseWordsFixTheResultOnlyWhenOk : Obligations.ResponseWordsFixTheResultOnlyWhenOk :=
  ⟨shows_ok_iff, shows_error_iff nofun, shows_error_iff nofun, shows_error_iff nofun⟩

/-- Settles O23: each word is evaluated. -/
theorem writtenOutWordsDecode : Obligations.WrittenOutWordsDecode := ⟨rfl, rfl, rfl, rfl, rfl, rfl, rfl, rfl⟩

/-- Settles O28: the value of every byte fits the result's low byte. -/
theorem bcdDecResult : Obligations.BcdDecResult := by
  refine ⟨fun w hop => ?_, fun b s => ?_⟩
  · rw [decode_of_opcodeOf (op := .bcdDec) hop, operandsOf, extractLsb'_payloadOf w (by decide)]
  · have hfits : fitsU 8 (decodeBcd b) = true := by
      have hmem := decodeBcd_mem b
      simp only [fitsU, Bool.and_eq_true, decide_eq_true_eq]
      omega
    have hvalue : decodeBcd b = (b.toNat / 16 * 10 + b.toNat % 16 : Nat) := by
      rw [decodeBcd_eq_nibbles]
      omega
    have hword : zext72 (BitVec.ofInt 8 (decodeBcd b)) = BitVec.ofNat 72 (b.toNat / 16 * 10 + b.toNat % 16) := by
      rw [zext72_eq_ofInt, ofInt_toNat_of_fits hfits, hvalue, BitVec.ofInt_natCast]
    rw [← hword]
    rfl

/-- Settles O39. -/
theorem tempQueryResult : Obligations.TempQueryResult :=
  ⟨fun _ hop => decode_of_opcodeOf (op := .tempQuery) hop, exec_tempQuery⟩

/-- Settles O45. -/
theorem windowResult : Obligations.WindowResult := by
  refine ⟨fun w hop => ?_, fun hour month s => ?_⟩
  · rw [decode_of_opcodeOf (op := .window) hop, operandsOf, u8At, u8At, extractLsb'_payloadOf w (by decide),
      extractLsb'_payloadOf w (by decide)]
  · have hactive : inActiveWindow hour month = true ↔ (hour < 7 ∨ 22 ≤ hour) ∧ (month ≤ 5 ∨ 9 ≤ month) := by
      simp [inActiveWindow, isNight, isHeatingSeason]
    simp only [← hactive, ← bitResult_eq_ite]
    rfl

/-- Settles O47: the four rows of the table. -/
theorem relayResult : Obligations.RelayResult := by
  refine ⟨fun w hop => ?_, fun _ => rfl, fun _ => rfl, fun _ => rfl, fun _ => rfl⟩
  rw [decode_of_opcodeOf (op := .relay) hop, operandsOf, getLsbD_payloadOf w (by decide),
    getLsbD_payloadOf w (by decide)]

end Machine
end Sys2Proof
end

section
/-! PROOFS of the family 40_bcd_codec.md: the value of every byte and its range (O24), the byte of every value (O25), and
the two round trips (O26, O27). The valid BCD bytes are exactly those encode_bcd answers. -/

namespace Sys2Proof.Machine

/-- decode_bcd of a valid BCD byte is at most 99 (R63). -/
theorem decodeBcd_le_of_isBcd {b : Byte} (h : isBcd b) : decodeBcd b ≤ 99 := by
  obtain ⟨htens, hunits⟩ := h
  rw [decodeBcd_eq_nibbles]
  omega

/-- Whatever encode_bcd answers is a valid BCD byte (R64). -/
theorem isBcd_of_encodeBcd {v : Int} {b : Byte} (h : encodeBcd v = .ok b) : isBcd b := by
  obtain ⟨hv, hb⟩ := toNat_of_encodeBcd h
  exact ⟨by omega, by omega⟩

/-- A valid BCD byte is encode_bcd of its own value (R68). -/
theorem encodeBcd_decodeBcd_of_isBcd {b : Byte} (h : isBcd b) : encodeBcd (decodeBcd b) = .ok b := by
  obtain ⟨c, hc⟩ : ∃ c, encodeBcd (decodeBcd b) = .ok c :=
    ⟨_, encodeBcd_of_mem ⟨(decodeBcd_mem b).1, decodeBcd_le_of_isBcd h⟩⟩
  obtain ⟨-, hdigits⟩ := toNat_of_encodeBcd hc
  rw [decodeBcd_eq_nibbles] at hdigits
  obtain ⟨htens, hunits⟩ := h
  have hsame : c = b := BitVec.eq_of_toNat_eq (by omega)
  rw [hc, hsame]

/-- The high nibble of a byte is its sixteens. -/
theorem toNat_highNibble (b : Byte) : (b.extractLsb' 4 4).toNat = b.toNat / 16 := by
  have hb := b.isLt
  rw [BitVec.extractLsb'_toNat, Nat.shiftRight_eq_div_pow, Nat.mod_eq_of_lt (by omega)]

/-- The low nibble of a byte is its remainder by 16. -/
theorem toNat_lowNibble (b : Byte) : (b.extractLsb' 0 4).toNat = b.toNat % 16 := by
  rw [BitVec.extractLsb'_toNat, Nat.shiftRight_zero]

/-- Settles O25: the byte is 16 times the tens plus the units, which fixes both nibbles. -/
theorem encodeBcdOrRangeError : Obligations.EncodeBcdOrRangeError := by
  refine fun v => ⟨fun hv => ?_, encodeBcd_of_not_mem⟩
  obtain ⟨b, hb⟩ : ∃ b, encodeBcd v = .ok b := ⟨_, encodeBcd_of_mem hv⟩
  obtain ⟨-, hvalue⟩ := toNat_of_encodeBcd hb
  refine ⟨b, hb, hvalue, ?_, ?_, isBcd_of_encodeBcd hb, ?_⟩
  · rw [toNat_highNibble]
    omega
  · rw [toNat_lowNibble]
    omega
  · omega

/-- Settles O24. -/
theorem decodeBcdIsTotalWithItsRange : Obligations.DecodeBcdIsTotalWithItsRange := by
  refine ⟨fun b => ⟨?_, (decodeBcd_mem b).1, (decodeBcd_mem b).2, decodeBcd_le_of_isBcd⟩, rfl, rfl, rfl⟩
  rw [decodeBcd_eq_nibbles, Int.mul_comm]

/-- Settles O26. -/
theorem bcdRoundTripOfValues : Obligations.BcdRoundTripOfValues := by
  intro v hlow hhigh
  have hok := encodeBcd_of_mem ⟨hlow, hhigh⟩
  exact ⟨_, hok, decodeBcd_of_encodeBcd hok⟩

/-- Settles O27: encode_bcd answers valid BCD bytes only, and gives each of them back. -/
theorem bcdRoundTripOfValidBytesOnly : Obligations.BcdRoundTripOfValidBytesOnly :=
  ⟨fun _ => ⟨isBcd_of_encodeBcd, encodeBcd_decodeBcd_of_isBcd⟩, rfl, rfl, rfl, rfl⟩

end Sys2Proof.Machine
end

section
/-! PROOFS of the family 41_rtc_register_model.md: the fields of a decoded block (O30, O31), the registers of an encoded
time (O33), and what reads back, of times (O34, O36) and of blocks (O37). The decoders and the encoders are first said
as arithmetic on the values of the bytes. -/

namespace Sys2Proof.Machine

/-! ## Bits of a byte from its value -/

theorem getLsbD_eq_true_iff_div_mod (b : Byte) (i : Nat) : b.getLsbD i = true ↔ b.toNat / 2 ^ i % 2 = 1 := by
  rw [BitVec.getLsbD, Nat.testBit_eq_decide_div_mod_eq, decide_eq_true_iff]

theorem getLsbD_eq_false_iff_div_mod (b : Byte) (i : Nat) : b.getLsbD i = false ↔ b.toNat / 2 ^ i % 2 = 0 := by
  rw [BitVec.getLsbD, Nat.testBit_eq_decide_div_mod_eq, decide_eq_false_iff_not, Nat.mod_two_not_eq_one]

theorem bit7_iff (b : Byte) : b.getLsbD 7 = true ↔ 128 ≤ b.toNat := by
  have := b.isLt
  rw [getLsbD_eq_true_iff_div_mod]
  omega

/-- With bits 6 and 5 clear the low seven bits fit the five that carry a month (R76, R85). -/
theorem bits6And5_clear_iff (b : Byte) : b.getLsbD 6 = false ∧ b.getLsbD 5 = false ↔ b.toNat % 128 < 32 := by
  revert b
  decide

/-! ## The decoders as arithmetic -/

/-- decode_bcd of the low five bits, which carry a month and a 12-hour hour (R73, R76). -/
theorem decodeBcd_lowFive (b : Byte) :
    decodeBcd (b &&& 0x1F) = 10 * (b.toNat % 32 / 16 : Nat) + (b.toNat % 16 : Nat) := by
  have hlow : (b &&& 0x1F).toNat = b.toNat % 32 := Nat.and_two_pow_sub_one_eq_mod b.toNat 5
  rw [decodeBcd_eq_nibbles, hlow, Nat.mod_mod_of_dvd b.toNat (show 16 ∣ 32 by decide)]

/-- In 12-hour mode the hour is the low five bits, plus 12 with the PM flag (R73). -/
theorem decodeHour_of_bit6 {h : Byte} (hmode : h.getLsbD 6 = true) :
    decodeHour h = decodeBcd (h &&& 0x1F) + if h.getLsbD 5 then 12 else 0 := by
  rw [decodeHour, if_pos hmode]
  split
  · rfl
  · exact (Int.add_zero _).symm

/-- In 24-hour mode the hour is the whole byte (R73). -/
theorem decodeHour_of_not_bit6 {h : Byte} (hmode : h.getLsbD 6 = false) : decodeHour h = decodeBcd h :=
  if_neg (Bool.eq_false_iff.mp hmode)

/-- In 12-hour mode no hour is above 37 (R73). -/
theorem decodeHour_mem_of_bit6 {h : Byte} (hmode : h.getLsbD 6 = true) : 0 ≤ decodeHour h ∧ decodeHour h ≤ 37 := by
  rw [decodeHour_of_bit6 hmode, decodeBcd_lowFive]
  split <;> omega

/-- In 24-hour mode no hour is above 125, since bit 6 is clear (R73). -/
theorem decodeHour_mem_of_not_bit6 {h : Byte} (hmode : h.getLsbD 6 = false) :
    0 ≤ decodeHour h ∧ decodeHour h ≤ 125 := by
  rw [decodeHour_of_not_bit6 hmode, decodeBcd_eq_nibbles]
  rw [getLsbD_eq_false_iff_div_mod] at hmode
  have := h.isLt
  omega

/-- The century bit is the top bit of the month register (R77). -/
theorem decodeYear_eq (monthCentury year : Byte) :
    decodeYear monthCentury year = decodeBcd year + if 128 ≤ monthCentury.toNat then 2000 else 1900 := by
  simp only [decodeYear, bit7_iff, Config.epochSet, Config.epochClear]

/-! ## The encoders as arithmetic -/

/-- The tens digits 4 to 7, and no others, set bit 6, which selects 12-hour mode in an hours register (R82). -/
theorem bit6_iff_of_encodeBcd {v : Int} {b : Byte} (h : encodeBcd v = .ok b) :
    b.getLsbD 6 = true ↔ 40 ≤ v ∧ v ≤ 79 := by
  obtain ⟨hv, hvalue⟩ := toNat_of_encodeBcd h
  rw [getLsbD_eq_true_iff_div_mod]
  omega

/-- The year register holds the year less 2000 from 2000 on, and less 1900 before (R85). -/
theorem encodeYear_eq (year : Int) : encodeYear year = encodeBcd (year - if 2000 ≤ year then 2000 else 1900) := by
  simp only [encodeYear, centuryBit, Config.epochSet, Config.epochClear, ge_iff_le, decide_eq_true_eq]

/-- Or-ing the century bit into a byte adds 128, unless the top bit is already set (R85). -/
theorem toNat_or_century (m : Byte) (c : Bool) :
    (m ||| (BitVec.ofBool c).setWidth 8 <<< 7).toNat = m.toNat + if c = true ∧ m.toNat < 128 then 128 else 0 := by
  revert m c
  decide

/-- The month register is the BCD month, plus the century bit unless the tens digit of a month from 80 on has set that
bit already (R85). -/
theorem encodeMonth_eq_ok_iff_toNat (year month : Int) (c : Byte) :
    encodeMonth year month = .ok c ↔ (0 ≤ month ∧ month ≤ 99) ∧
      (c.toNat : Int) = 16 * (month / 10) + month % 10 + if 2000 ≤ year ∧ month < 80 then 128 else 0 := by
  have hcentury : centuryBit year = true ↔ 2000 ≤ year := decide_eq_true_iff
  have hored : ∀ m : Byte, encodeBcd month = .ok m →
      ((m ||| (BitVec.ofBool (centuryBit year)).setWidth 8 <<< 7).toNat : Int) =
        16 * (month / 10) + month % 10 + if 2000 ≤ year ∧ month < 80 then 128 else 0 := by
    intro m hm
    obtain ⟨hmonth, hdigits⟩ := toNat_of_encodeBcd hm
    simp only [toNat_or_century, hcentury, Nat.cast_add, Nat.cast_ite]
    omega
  refine (encodeMonth_eq_ok_iff ..).trans ⟨?_, ?_⟩
  · rintro ⟨m, hm, rfl⟩
    exact ⟨(toNat_of_encodeBcd hm).1, hored m hm⟩
  · rintro ⟨hmonth, hvalue⟩
    have hm := encodeBcd_of_mem hmonth
    have hsame := hored _ hm
    exact ⟨_, hm, BitVec.eq_of_toNat_eq (by omega)⟩

/-! ## What reads back of a month register -/

/-- Of a month's tens digit only the lowest bit is read back (R76, R85). -/
theorem decodeBcd_lowFive_of_encodeMonth {year month : Int} {c : Byte} (h : encodeMonth year month = .ok c) :
    decodeBcd (c &&& 0x1F) = 10 * (month / 10 % 2) + month % 10 := by
  obtain ⟨hmonth, hvalue⟩ := (encodeMonth_eq_ok_iff_toNat _ _ _).mp h
  rw [decodeBcd_lowFive]
  omega

/-- The tens digits 2 to 7, and no others, set bit 6 or bit 5 of the month register (U3). -/
theorem bits6And5_clear_iff_of_encodeMonth {year month : Int} {c : Byte} (h : encodeMonth year month = .ok c) :
    c.getLsbD 6 = false ∧ c.getLsbD 5 = false ↔ ¬ (20 ≤ month ∧ month ≤ 79) := by
  obtain ⟨hmonth, hvalue⟩ := (encodeMonth_eq_ok_iff_toNat _ _ _).mp h
  have hseven : (c.toNat % 128 : Nat) = 16 * (month / 10) + month % 10 - if 80 ≤ month then 128 else 0 := by omega
  rw [bits6And5_clear_iff]
  omega

/-- The top bit of the month register is set by the century or by a month from 80 on (U3). -/
theorem century_iff_of_encodeMonth {year month : Int} {c : Byte} (h : encodeMonth year month = .ok c) :
    128 ≤ c.toNat ↔ 2000 ≤ year ∨ 80 ≤ month := by
  obtain ⟨hmonth, hvalue⟩ := (encodeMonth_eq_ok_iff_toNat _ _ _).mp h
  omega

/-! ## Which registers come back -/

/-- An hours register comes back exactly when it is valid BCD in 24-hour mode: an hour of 12-hour mode is at most 37 and
is written below `0x40` (R147). -/
theorem encodeBcd_decodeHour_iff (h : Byte) :
    encodeBcd (decodeHour h) = .ok h ↔ isBcd h ∧ h.getLsbD 6 = false := by
  cases hmode : h.getLsbD 6 with
  | false =>
    rw [decodeHour_of_not_bit6 hmode, and_iff_left rfl]
    exact ⟨isBcd_of_encodeBcd, encodeBcd_decodeBcd_of_isBcd⟩
  | true =>
    simp only [Bool.true_eq_false, and_false, iff_false]
    intro hback
    have hvalue := (toNat_of_encodeBcd hback).2
    have hmem := decodeHour_mem_of_bit6 hmode
    rw [getLsbD_eq_true_iff_div_mod] at hmode
    omega

/-- The day-of-week register always comes back (R147). -/
theorem encodeWeekday_sub_one (b : Byte) : encodeWeekday (b.toNat - 1) = .ok b := by
  have := b.isLt
  rw [encodeWeekday_of_mem (by omega), sub_add_cancel, BitVec.ofInt_natCast, BitVec.ofNat_toNat, BitVec.setWidth_eq]

/-- The month and year registers come back exactly when the year register is valid BCD and the month register has bits 6
and 5 clear and a digit below (R147). Only a month to 19 is read back from the register it is written to; a valid BCD year
register leaves the decoded year in the century it was decoded with. -/
theorem month_and_year_come_back_iff (c y : Byte) :
    (encodeMonth (decodeYear c y) (decodeBcd (c &&& 0x1F)) = .ok c ∧ encodeYear (decodeYear c y) = .ok y) ↔
      isBcd y ∧ c.getLsbD 6 = false ∧ c.getLsbD 5 = false ∧ c.toNat % 16 ≤ 9 := by
  constructor
  · rintro ⟨hmonth, hyear⟩
    have hsame := decodeBcd_lowFive_of_encodeMonth hmonth
    obtain ⟨hclear6, hclear5⟩ := (bits6And5_clear_iff_of_encodeMonth hmonth).mpr (by omega)
    have hvalue := ((encodeMonth_eq_ok_iff_toNat ..).mp hmonth).2
    exact ⟨isBcd_of_encodeBcd hyear, hclear6, hclear5, by omega⟩
  · rintro ⟨hvalid, hclear6, hclear5, hdigit⟩
    have hseven := (bits6And5_clear_iff c).mp ⟨hclear6, hclear5⟩
    have hc := c.isLt
    have hyearMem := And.intro (decodeBcd_mem y).1 (decodeBcd_le_of_isBcd hvalid)
    have hcentury : 2000 ≤ decodeYear c y ↔ 128 ≤ c.toNat := by
      rw [decodeYear_eq]
      omega
    constructor
    · rw [encodeMonth_eq_ok_iff_toNat, decodeBcd_lowFive]
      omega
    · rw [encodeYear_eq]
      simp only [hcentury]
      rw [decodeYear_eq, add_sub_cancel_right]
      exact encodeBcd_decodeBcd_of_isBcd hvalid

/-! ## The obligations -/

/-- Settles O30: the decoders as arithmetic; the ranges follow from the values of the bytes. -/
theorem rtcDecodeFieldsOtherThanHour : Obligations.RtcDecodeFieldsOtherThanHour := by
  intro b bcd t
  have hbcd : ∀ x : Byte, decodeBcd x = bcd x := fun x => by rw [decodeBcd_eq_nibbles, Int.mul_comm]
  have hyear : t.year = decodeBcd b.year + if 128 ≤ b.monthCentury.toNat then 2000 else 1900 := decodeYear_eq _ _
  have hmonth : t.month = 10 * (b.monthCentury.toNat % 32 / 16 : Nat) + (b.monthCentury.toNat % 16 : Nat) :=
    decodeBcd_lowFive _
  have hweekday : t.weekday = b.dayOfWeek.toNat - 1 := rfl
  have hday := b.dayOfWeek.isLt
  have hyearMem := decodeBcd_mem b.year
  refine ⟨hbcd _, hbcd _, hbcd _, hweekday, by omega, by rw [hyear, hbcd], decodeBcd_mem _, decodeBcd_mem _,
    decodeBcd_mem _, by omega, by omega, fun hclear => by omega, fun hset => by omega, fun hvalid => ?_, rfl, rfl⟩
  have := decodeBcd_le_of_isBcd hvalid
  exact ⟨fun hclear => by omega, by omega⟩

/-- Settles O31, mode by mode. -/
theorem rtcDecodeHourByMode : Obligations.RtcDecodeHourByMode := by
  refine ⟨fun b => ?_, rfl⟩
  have hhour : (rtcDecode b).hour = decodeHour b.hours := rfl
  rw [hhour]
  refine ⟨fun hmode hpm => ?_, fun hmode hpm => ?_, fun hmode => ?_, ?_⟩
  · rw [decodeHour_of_bit6 hmode, if_pos hpm, decodeBcd_lowFive, Int.mul_comm]
  · rw [decodeHour_of_bit6 hmode, hpm, if_neg Bool.false_ne_true, decodeBcd_lowFive, Int.mul_comm, Int.add_zero]
  · rw [decodeHour_of_not_bit6 hmode, decodeBcd_eq_nibbles, Int.mul_comm]
  · cases hmode : b.hours.getLsbD 6 with
    | true => exact (decodeHour_mem_of_bit6 hmode).imp_right fun h => h.trans (by decide)
    | false => exact decodeHour_mem_of_not_bit6 hmode

/-- Settles O33: the domain of the packer, and the encoders as arithmetic. -/
theorem rtcEncodeRegistersOrRangeError : Obligations.RtcEncodeRegistersOrRangeError := by
  refine fun t => ⟨fun ht => ?_, rtcEncode_of_not_encodable⟩
  obtain ⟨b, hb⟩ := exists_rtcEncode_eq_ok ht
  obtain ⟨hsecond, hminute, hhour, hweekday, hday, hmonthReg, hyearReg⟩ := (rtcEncode_eq_ok_iff t b).mp hb
  obtain ⟨hmonth, hmonthValue⟩ := (encodeMonth_eq_ok_iff_toNat _ _ _).mp hmonthReg
  rw [encodeYear_eq] at hyearReg
  have hyearValue := (toNat_of_encodeBcd hyearReg).2
  refine ⟨b, hb, (toNat_of_encodeBcd hsecond).2, (toNat_of_encodeBcd hminute).2, (toNat_of_encodeBcd hhour).2,
    toNat_of_encodeWeekday hweekday, (toNat_of_encodeBcd hday).2, fun hbefore => ?_, fun hfrom => ?_⟩
  · rw [if_neg (by omega)] at hyearValue
    exact ⟨by omega, hyearValue⟩
  · rw [if_pos hfrom] at hyearValue
    exact ⟨by omega, (bit7_iff _).mpr (by omega), hyearValue⟩

/-- Settles O34: what the hour's and the month's tens digits do to the mode bit, the two bits above a month and the
century bit. -/
theorem hoursAndMonthsThatReadBackDifferently : Obligations.HoursAndMonthsThatReadBackDifferently := by
  intro t b hb
  obtain ⟨-, hmonth, -⟩ := encodable_of_rtcEncode hb
  obtain ⟨-, -, hhourReg, -, -, hmonthReg, hyearReg⟩ := (rtcEncode_eq_ok_iff t b).mp hb
  have hmode : b.hours.getLsbD 6 = true ↔ 40 ≤ t.hour ∧ t.hour ≤ 79 := bit6_iff_of_encodeBcd hhourReg
  have hclear := bits6And5_clear_iff_of_encodeMonth hmonthReg
  have hcentury := century_iff_of_encodeMonth hmonthReg
  have hmonthBack : (rtcDecode b).month = 10 * (t.month / 10 % 2) + t.month % 10 :=
    decodeBcd_lowFive_of_encodeMonth hmonthReg
  refine ⟨hmode, ⟨fun hback hmem => ?_, fun hmem => decodeHour_of_encodeBcd (by omega) hhourReg⟩, ?_,
    fun hle => hclear.mpr (by omega), fun hmem => ?_, fun hge => ?_, ?_⟩
  · have hle : (rtcDecode b).hour ≤ 37 := (decodeHour_mem_of_bit6 (hmode.mpr hmem)).2
    omega
  · rw [hmonthBack]
    omega
  · by_contra hbits
    rw [not_or, Bool.not_eq_true, Bool.not_eq_true] at hbits
    exact hclear.mp hbits hmem
  · exact (bit7_iff _).mpr (hcentury.mpr (.inr hge))
  · rw [encodeYear_eq] at hyearReg
    rw [rtcDecode, decodeYear_eq, decodeBcd_of_encodeBcd hyearReg]
    simp only [hcentury]
    omega

/-- Settles O36. -/
theorem rtcRoundTripOfTimes : Obligations.RtcRoundTripOfTimes := by
  refine ⟨fun t ht hmonth hhour => ?_, fun _ => exists_rtcEncode_of_valid⟩
  obtain ⟨b, hb⟩ := exists_rtcEncode_eq_ok ht
  exact ⟨b, hb, rtcDecode_of_rtcEncode hmonth hhour hb⟩

/-- Settles O37, register by register. -/
theorem rtcRoundTripOfBlocks : Obligations.RtcRoundTripOfBlocks := by
  refine ⟨⟨rfl, rfl, rfl, rfl⟩, fun b => ?_⟩
  have hbcd : ∀ x : Byte, encodeBcd (decodeBcd x) = .ok x ↔ isBcd x := bcdRoundTripOfValidBytesOnly.1
  rw [rtcEncode_eq_ok_iff]
  simp only [rtcDecode, hbcd, encodeBcd_decodeHour_iff, encodeWeekday_sub_one, true_and,
    month_and_year_come_back_iff]
  constructor
  · rintro ⟨hsecond, hminute, hhour, hdate, hyear, hmonth⟩
    exact ⟨hsecond, hminute, hdate, hyear, hhour, hmonth⟩
  · rintro ⟨hsecond, hminute, hdate, hyear, hhour, hmonth⟩
    exact ⟨hsecond, hminute, hhour, hdate, hyear, hmonth⟩

end Sys2Proof.Machine
end

section
/-! PROOFS of the family 42_temperature_monitor.md: the transitions and the report (O40), the band (O41), no reading (O42),
the document's readings (O43), and what a sequence of polls leaves in `is_low` (O44). First the transition from each state
and a poll as one step, then the polls as a fold over their readings. -/

namespace Sys2Proof.Machine

/-! ## The transition from each state -/

/-- With a reading the report is the state after the transition (R91). -/
theorem tempStep_some (th : Thresholds) (l : Bool) (r : Int) :
    tempStep th l (some r) = (nextIsLow th l r, nextIsLow th l r) := rfl

/-- From Normal, the block is low exactly on a reading strictly below the low threshold (R88). -/
theorem nextIsLow_false (th : Thresholds) (r : Int) : nextIsLow th false r = decide (r < th.low) := by
  by_cases h : r < th.low <;> simp [nextIsLow, h]

/-- From Low, the block stays low exactly up to the high threshold (R89). -/
theorem nextIsLow_true (th : Thresholds) (r : Int) : nextIsLow th true r = decide (r ≤ th.high) := by
  by_cases h : r ≤ th.high <;> simp [nextIsLow, h, lt_of_not_ge]

/-- A reading that no band of ordered thresholds holds: below the low one or above the high one (R94). -/
def outsideBand (th : Thresholds) (r : Int) : Bool := decide (r < th.low ∨ th.high < r)

/-- The band at the thresholds exec runs with (R4; log entry 6). -/
theorem outsideBand_thresholds : outsideBand Config.thresholds = fun r => decide (r < -3000 ∨ -1500 < r) := rfl

/-- A reading outside the band decides the state alone, any other keeps it (R88, R89, R94). -/
theorem nextIsLow_eq_ite_outsideBand {th : Thresholds} (ho : th.ordered) (l : Bool) (r : Int) :
    nextIsLow th l r = if outsideBand th r then decide (r < th.low) else l := by
  simp only [outsideBand, decide_eq_true_eq]
  split
  case isTrue hout =>
    by_cases hlow : r < th.low
    · rw [nextIsLow_of_lt_low ho l hlow, decide_eq_true hlow]
    · rw [nextIsLow_of_high_lt ho l (hout.resolve_left hlow), decide_eq_false hlow]
  case isFalse hin => exact nextIsLow_of_mem_band l (by omega)

/-! ## A sequence of polls -/

/-- A TEMP_POLL word at the head of the inputs of a block not faulted: the step makes the poll's transition and gives one
response (R90, R115). -/
theorem step_tempPoll {s : State} {x : Option Int} {rest : List HostInput} (hf : s.fault = false)
    (hwf : (Instr.tempPoll x).wf = true) (hin : s.inputs = .command (encode (.tempPoll x)) :: rest) :
    ∃ t : State, step s = .next t ∧ t.fault = false ∧ t.inputs = rest ∧
      t.responses.length = s.responses.length + 1 ∧ t.isLow = (tempStep Config.thresholds s.isLow x).1 := by
  have hdecode := decodeOfEncodeIsTheInstruction _ hwf
  rw [step_command hin, runCommand_decoded exec (s := s.withInputs rest) hf hdecode, exec_tempPoll]
  exact ⟨_, rfl, hf, rfl, rfl, rfl⟩

/-- A run goes on from what its first step answers. -/
theorem run_succ_of_step {M : Host.Core} {s t : M.State} (h : M.step s = .next t) (k : Nat) :
    M.run (k + 1) s = M.run k t := by
  rw [Host.Core.run, h]

/-- The state that polls of `readings` leave, from `l` (R90). -/
def isLowAfter (th : Thresholds) (l : Bool) (readings : List (Option Int)) : Bool :=
  readings.foldl (fun l x => (tempStep th l x).1) l

/-- Polls given as command words to a block not faulted: each is answered, none faults, and `is_low` goes through their
transitions in order (R41, R90). -/
theorem run_tempPolls (readings : List (Option Int)) {s : State} (hf : s.fault = false)
    (hwf : ∀ x ∈ readings, (Instr.tempPoll x).wf = true)
    (hin : s.inputs = readings.map fun x => HostInput.command (encode (.tempPoll x))) :
    ∃ t : State, Host.Core.run core readings.length s = .next t ∧ t.fault = false ∧ t.inputs = [] ∧
      t.responses.length = s.responses.length + readings.length ∧
      t.isLow = isLowAfter Config.thresholds s.isLow readings := by
  induction readings generalizing s with
  | nil => exact ⟨s, rfl, hf, hin, rfl, rfl⟩
  | cons x readings ih =>
    obtain ⟨hx, hreadings⟩ := List.forall_mem_cons.mp hwf
    obtain ⟨u, hstep, hfault, hinputs, hone, hlow⟩ := step_tempPoll hf hx hin
    obtain ⟨t, hrun, hfault', hinputs', hmore, hlow'⟩ := ih hfault hreadings hinputs
    refine ⟨t, (run_succ_of_step (M := core) hstep _).trans hrun, hfault', hinputs', ?_, ?_⟩
    · rw [hmore, hone, List.length_cons]
      omega
    · rw [hlow', hlow]
      rfl

/-- The last reading outside the band decides what polls leave; with none there, the starting state stays (R88, R89, R92,
R94). The induction takes the last poll off. -/
theorem isLowAfter_eq_last_outsideBand {th : Thresholds} (ho : th.ordered) (l : Bool) (readings : List (Option Int)) :
    isLowAfter th l readings =
      ((readings.reverse.filterMap id).find? (outsideBand th)).elim l fun r => decide (r < th.low) := by
  induction readings using List.reverseRecOn with
  | nil => rfl
  | append_singleton readings x ih =>
    have hlast : isLowAfter th l (readings ++ [x]) = (tempStep th (isLowAfter th l readings) x).1 :=
      List.foldl_concat ..
    rw [hlast, List.reverse_concat]
    cases x with
    | none => exact ih
    | some r =>
      rw [tempStep_some, nextIsLow_eq_ite_outsideBand ho, ih, List.filterMap_cons_some (f := id) (b := r) rfl]
      cases hr : outsideBand th r with
      | true => rw [List.find?_cons_of_pos hr]; rfl
      | false => rw [List.find?_cons_of_neg (Bool.eq_false_iff.mp hr)]; rfl

/-! ## The obligations -/

/-- Settles O44: the run makes the polls' transitions, and of those the last reading outside the band decides. -/
theorem lastReadingOutsideTheBandDecides : Obligations.LastReadingOutsideTheBandDecides := by
  intro readings s hf hwf hin
  obtain ⟨t, hrun, hfault, hinputs, hresponses, hlow⟩ := run_tempPolls readings hf hwf hin
  refine ⟨t, hrun, hfault, hinputs, hresponses, ?_⟩
  rw [hlow, isLowAfter_eq_last_outsideBand (by decide), outsideBand_thresholds]
  cases (readings.reverse.filterMap id).find? fun r => decide (r < -3000 ∨ -1500 < r) <;> rfl

/-- Settles O40, from each state. -/
theorem transitionsAreStrictAndReported : Obligations.TransitionsAreStrictAndReported := by
  intro th l r
  simp only [tempStep_some, nextIsLow_false, nextIsLow_true]
  refine ⟨fun h => ?_, fun h => ?_, fun h => ?_, fun h => ?_, rfl⟩
  · rw [decide_eq_true h]
  · rw [decide_eq_false (not_lt.mpr h)]
  · rw [decide_eq_false (not_le.mpr h)]
  · rw [decide_eq_true h]

/-- Settles O41: the band by its general law, each end by the transition from the one state it matters to; the four readings
at the edges of R4 are evaluated. -/
theorem hysteresisBandKeepsTheState : Obligations.HysteresisBandKeepsTheState := by
  refine ⟨fun th l r ho => ⟨fun hband => ?_, fun hlow => ?_, fun hhigh => ?_, ?_⟩, rfl, rfl, rfl, rfl⟩
  · rw [tempStep_some, nextIsLow_of_mem_band l hband]
  · rw [tempStep_some, nextIsLow_false, decide_eq_false (not_lt.mpr hlow)]
  · rw [tempStep_some, nextIsLow_true, decide_eq_true hhigh]
  · rintro ⟨hbelow, habove⟩
    exact lt_asymm ho (habove.trans hbelow)

/-- Settles O42. -/
theorem noReadingKeepsTheStateAndReportsNotLow : Obligations.NoReadingKeepsTheStateAndReportsNotLow :=
  fun _ _ => rfl

/-- Settles O43: each poll is evaluated. -/
theorem documentedReadingSequence : Obligations.DocumentedReadingSequence := ⟨rfl, rfl, rfl, rfl, rfl⟩

end Sys2Proof.Machine
end

section
/-! PROOFS of the family 43_time_window_relay.md: what a cycle of the host does when no access fails (O50), and the
document's windows (O46). First the commands of a cycle issued, then the parts of the cycle in the order of R132. -/

namespace Sys2Proof.Machine

/-! ## The commands of a cycle issued -/

/-- A well-formed instruction that exec answers with `OK`, issued to a block not faulted. -/
theorem issue_of_exec {i : Instr} {s t : State} {r : Result} (hf : s.fault = false) (hwf : i.wf = true)
    (hexec : exec i s = .next (t.deliver (.ok r))) (hresp : t.responses = s.responses) :
    issue i s = (t.deliver (.ok r), some r) :=
  issue_ok hf hwf (decodeOfEncodeIsTheInstruction i hwf) hexec (congrArg (Response.ok r :: ·) hresp)

/-- TEMP_POLL issued: the transition and the report of temp_step (R90). -/
theorem issue_tempPoll {s : State} {reading : Option Int} (hf : s.fault = false)
    (hwf : (Instr.tempPoll reading).wf = true) :
    issue (.tempPoll reading) s =
      ((s.setIsLow (tempStep Config.thresholds s.isLow reading).1).deliver
          (.ok (bitResult (tempStep Config.thresholds s.isLow reading).2)),
        some (bitResult (tempStep Config.thresholds s.isLow reading).2)) :=
  issue_of_exec hf hwf (exec_tempPoll reading s) rfl

/-- WINDOW issued with fields a command word carries (R101). -/
theorem issue_window {s : State} {hour month : Int} (hf : s.fault = false) (hwf : (Instr.window hour month).wf = true) :
    issue (.window hour month) s =
      (s.deliver (.ok (bitResult (inActiveWindow hour month))), some (bitResult (inActiveWindow hour month))) :=
  issue_of_exec hf hwf rfl rfl

/-- RELAY issued (R103). -/
theorem issue_relay {s : State} (hf : s.fault = false) (active low : Bool) :
    issue (.relay active low) s =
      (s.deliver (.ok (bitResult (relayDecision active low))), some (bitResult (relayDecision active low))) :=
  issue_of_exec hf rfl rfl rfl

/-! ## The parts of a cycle in which nothing fails -/

/-- WINDOW and RELAY write the level decided from the local time and the report, and keep the block's state (R102, R105). -/
theorem decideRelay_ends {s : State} {civil : CalendarTime} (hf : s.fault = false)
    (hwf : (Instr.window civil.hour civil.month).wf = true) (clock : CalendarTime) (report : Bool) :
    ∃ t : State,
      decideRelay clock civil report s =
          { block := t, clock := some clock,
            relay := some (relayDecision (inActiveWindow civil.hour civil.month) report), stop := none } ∧
        t.fault = false ∧ t.isLow = s.isLow := by
  have hrelay := issue_relay (s := s.deliver (.ok (bitResult (inActiveWindow civil.hour civil.month)))) hf
    (inActiveWindow civil.hour civil.month) report
  rw [decideRelay, issue_window hf hwf]
  simp only [bitResult_bit, hrelay]
  exact ⟨_, rfl, hf, rfl⟩

/-- After the clock is set: TEMP_POLL moves the state, and its report goes into the decision (R105, R132). -/
theorem pollAndDecide_ends {work : CycleWork} {clock : CalendarTime} {reading : Option Int} {s : State}
    (hf : s.fault = false) (hsensor : readingOf work.instead work.sensor = .ok reading)
    (hwf : (Instr.window (work.localTime clock).hour (work.localTime clock).month).wf = true) :
    ∃ t : State,
      pollAndDecide work clock s =
          { block := t, clock := some clock,
            relay := some (relayDecision (inActiveWindow (work.localTime clock).hour (work.localTime clock).month)
              (tempStep Config.thresholds s.isLow reading).2), stop := none } ∧
        t.fault = false ∧ t.isLow = (tempStep Config.thresholds s.isLow reading).1 := by
  rw [pollAndDecide, hsensor]
  simp only [issue_tempPoll hf (readingOf_wf hsensor), bitResult_bit]
  exact decideRelay_ends (by simp [hf]) hwf clock _

/-- RTC_DEC comes first and sets the clock to the decoded time, whose fields all fit the response (R132, R133). -/
theorem controlCycle_of_rtc_read {work : CycleWork} {regs : RegBlock} {s : State} (hf : s.fault = false)
    (hrtc : work.rtc = some regs) :
    controlCycle work s =
      pollAndDecide work (rtcDecode regs) (s.deliver (.ok (packTime (rtcDecode regs)))) := by
  rw [controlCycle, hrtc, syncClock_some hf, unpackTime_packTime _ (rtcDecode_fits regs)]

/-! ## The obligations -/

/-- Settles O50: the clock sync, then the poll and the decision on its report. -/
theorem cycleDrivesTheRelayFromWindowAndReport : Obligations.CycleDrivesTheRelayFromWindowAndReport := by
  intro work regs reading s hf hrtc hsensor hwf
  obtain ⟨t, hend, hfault, hlow⟩ :=
    pollAndDecide_ends (s := s.deliver (.ok (packTime (rtcDecode regs)))) hf hsensor hwf
  rw [controlCycle_of_rtc_read hf hrtc, hend]
  exact ⟨rfl, rfl, hfault, hlow, rfl⟩

/-- Settles O46: each window is evaluated; 9 hours of night and 9 months of the season make the 81 pairs. -/
theorem windowExamplesAndCount : Obligations.WindowExamplesAndCount :=
  ⟨rfl, rfl, rfl, rfl, rfl, rfl, rfl⟩

end Sys2Proof.Machine
end

section
/-! PROOFS of the family 60_exceptions.md: the first fault and its refusals (O15), fault entry (O7), the way out of a fault
(O8), no nesting (O9), the decoded command (O3), refusal (O4). First what a step can do with the fault. -/

namespace Sys2Proof.Machine

/-! ## What a step does with the fault -/

/-- The three ends of a command: refused, completed, or one fault taken (R115). -/
theorem runCommand_exec_cases (w : Command) (s : State) :
    (s.fault = true ∧ runCommand exec w s = refuse s) ∨
      (s.fault = false ∧ ∃ r l, runCommand exec w s = .next ((s.setIsLow l).deliver (.ok r))) ∨
      (s.fault = false ∧ ∃ e, runCommand exec w s = takeFault e s) := by
  obtain ⟨hf, hrun⟩ | ⟨hf, -, hrun⟩ | ⟨i, hf, -, hrun⟩ := runCommand_shapes exec w s
  · exact .inl ⟨hf, hrun⟩
  · exact .inr (.inr ⟨hf, _, hrun⟩)
  · obtain ⟨r, l, hexec, -⟩ | ⟨hexec, -⟩ := exec_cases i s
    · exact .inr (.inl ⟨hf, r, l, hrun.trans hexec⟩)
    · exact .inr (.inr ⟨hf, _, hrun.trans hexec⟩)

/-- The five ways of a step with the fault: a reset clears it, an idle step keeps the state, a faulted block refuses, and a
block not faulted completes the command or takes one fault (R112, R114, R116, R126). -/
theorem step_fault_cases {s t : State} (h : step s = .next t) :
    ((t.isLow = false ∧ t.fault = false ∧ t.cause = .none) ∧
        ∃ rest, s.inputs = .reset :: rest ∨ ∃ w, s.inputs = .overtaken w :: rest) ∨
      t = s ∨
      (s.fault = true ∧ t = (s.withInputs s.inputs.tail).deliver .refused) ∨
      (s.fault = false ∧ t.fault = false) ∨
      (s.fault = false ∧ ∃ e : BlockError, t = ((s.withInputs s.inputs.tail).recordFault e).deliver e.response) := by
  obtain ⟨-, hs⟩ | ⟨rest, hin, hs⟩ | ⟨w, rest, hin, hs⟩ | ⟨w, rest, hin, hs⟩ := step_shapes s
  · cases hs.symm.trans h
    exact .inr (.inl rfl)
  · cases hs.symm.trans h
    exact .inl ⟨⟨rfl, rfl, rfl⟩, rest, .inl hin⟩
  · cases hs.symm.trans h
    exact .inl ⟨⟨rfl, rfl, rfl⟩, rest, .inr ⟨w, hin⟩⟩
  · rw [hin, List.tail_cons]
    obtain ⟨hf, hrun⟩ | ⟨hf, r, l, hrun⟩ | ⟨hf, e, hrun⟩ := runCommand_exec_cases w (s.withInputs rest)
    · cases (hs.trans hrun).symm.trans h
      exact .inr (.inr (.inl ⟨hf, rfl⟩))
    · cases (hs.trans hrun).symm.trans h
      exact .inr (.inr (.inr (.inl ⟨hf, hf⟩)))
    · cases (hs.trans hrun).symm.trans h
      exact .inr (.inr (.inr (.inr ⟨hf, e, rfl⟩)))

/-! ## The invariant of R117 -/

/-- A state that is not faulted has no first fault to name. -/
theorem causeNamesFirstFault_of_not_fault {s : State} (h : s.fault = false) : s.causeNamesFirstFault :=
  fun hf => absurd hf (ne_true_of_eq_false h)

/-- One more refusal stands before the same first fault. -/
theorem causeNamesFirstFault_deliver_refused {s : State} (h : s.causeNamesFirstFault) :
    (s.deliver .refused).causeNamesFirstFault := by
  intro hf
  obtain ⟨n, e, older, hresp, hcause⟩ := h hf
  exact ⟨n + 1, e, older, congrArg (Response.refused :: ·) hresp, hcause⟩

/-- A fault just taken is the first, with no refusal after it yet. -/
theorem causeNamesFirstFault_recordFault (e : BlockError) (s : State) :
    ((s.recordFault e).deliver e.response).causeNamesFirstFault :=
  fun _ => ⟨0, e, s.responses, rfl, rfl⟩

/-! ## The obligations -/

/-- Settles O15, by the five ways of a step: one more refusal lengthens the run, a fault starts it. -/
theorem stepKeepsCauseNamesFirstFault : Obligations.StepKeepsCauseNamesFirstFault := by
  intro s t hs hstep
  obtain ⟨⟨-, hf, -⟩, -⟩ | rfl | ⟨-, rfl⟩ | ⟨-, hf⟩ | ⟨-, e, rfl⟩ := step_fault_cases hstep
  · exact causeNamesFirstFault_of_not_fault hf
  · exact hs
  · exact causeNamesFirstFault_deliver_refused (s := s.withInputs s.inputs.tail) hs
  · exact causeNamesFirstFault_of_not_fault hf
  · exact causeNamesFirstFault_recordFault e _

/-- Settles O7: of the five ways of a step only taking a fault sets the flag, for one of the two errors. -/
theorem faultEntryChangesNothingElse : Obligations.FaultEntryChangesNothingElse := by
  intro s t hstep hf hf'
  obtain ⟨⟨-, hclear, -⟩, -⟩ | rfl | ⟨hfs, -⟩ | ⟨-, hdone⟩ | ⟨-, e, rfl⟩ := step_fault_cases hstep
  · cases hclear.symm.trans hf'
  · cases hf.symm.trans hf'
  · cases hf.symm.trans hfs
  · cases hdone.symm.trans hf'
  · refine ⟨e.response, rfl, ?_, response_status_eq_cause_code e⟩
    cases e with
    | rangeError => exact .inl ⟨rfl, rfl⟩
    | illegalCommand => exact .inr ⟨rfl, rfl⟩

/-- Settles O8: of the five ways of a step only a reset clears the flag. -/
theorem onlyResetClearsTheFault : Obligations.OnlyResetClearsTheFault := by
  intro s t hstep hf hf'
  obtain ⟨⟨hlow, -, hcause⟩, hin⟩ | rfl | ⟨-, rfl⟩ | ⟨hfs, -⟩ | ⟨hfs, -⟩ := step_fault_cases hstep
  · exact ⟨hlow, hcause, hin⟩
  · cases hf.symm.trans hf'
  · cases hf.symm.trans hf'
  · cases hf.symm.trans hfs
  · cases hf.symm.trans hfs

/-- Settles O9: without a reset a faulted block idles or refuses, and either keeps `S`. -/
theorem faultsDoNotNest : Obligations.FaultsDoNotNest := by
  intro s t hstep hf hreset hovertaken
  obtain ⟨-, rest, hin | ⟨w, hin⟩⟩ | rfl | ⟨-, rfl⟩ | ⟨hfs, -⟩ | ⟨hfs, -⟩ := step_fault_cases hstep
  · exact absurd hin (hreset rest)
  · exact absurd hin (hovertaken w rest)
  · exact ⟨rfl, hf, rfl⟩
  · exact ⟨rfl, hf, rfl⟩
  · cases hf.symm.trans hfs
  · cases hf.symm.trans hfs

/-- Settles O3, by the third test of R115. -/
theorem stepRunsTheDecodedCommand : Obligations.StepRunsTheDecodedCommand := by
  intro s w rest i hin hf hd
  rw [step_command hin]
  exact runCommand_decoded exec (s := s.withInputs rest) hf hd

/-- Settles O4, by the first test of R115. -/
theorem faultedBlockRefusesEveryCommand : Obligations.FaultedBlockRefusesEveryCommand := by
  intro s w rest hin hf
  rw [step_command hin]
  exact ⟨runCommand_faulted exec (s := s.withInputs rest) hf, rfl⟩

end Sys2Proof.Machine
end

section
/-! PROOFS of the family 70_reset_and_hazards.md: reset alone (O2) and over an outstanding command (O10), torn register
reads (O49), and the start of the host's process (O51). First the two reset inputs as steps, and the host's start as a
clock sync of a block just reset. -/

namespace Sys2Proof.Machine

/-! ## The two reset inputs -/

/-- A reset input clears `S` and takes itself off the port (R128). -/
theorem step_reset {s : State} {rest : List HostInput} (h : s.inputs = .reset :: rest) :
    step s = .next (s.withInputs rest).clear := step_input h

/-- With an overtaken command at the head of the inputs, the step is the reset that overtakes it (R129). -/
theorem step_overtaken {s : State} {w : Command} {rest : List HostInput} (h : s.inputs = .overtaken w :: rest) :
    step s = .next (overtake exec w (s.withInputs rest)) := step_input h

/-- The responses after a command are those of the state it ends in. -/
theorem responsesAfter_of_next {run : Instr → State → Answer} {w : Command} {s u : State}
    (h : runCommand run w s = .next u) : responsesAfter run w s = u.responses := by
  rw [responsesAfter, h]

/-- Of an overtaken command nothing is delivered, or what the command alone would have (R129; log entry 5). -/
theorem overtake_responses (run : Instr → State → Answer) (w : Command) (s : State) :
    (overtake run w s).responses = s.responses ∨ (overtake run w s).responses = responsesAfter run w s := by
  rw [overtake]
  cases Config.deliverOvertaken s.freeCount with
  | false => exact .inl rfl
  | true => exact .inr rfl

/-! ## Part of the register writes, and the start of the host -/

/-- The first writes of an order are the writes of its first registers (R34). -/
theorem take_writesInOrder (block : RegBlock) (order : List (Fin 7)) (n : Nat) :
    (writesInOrder block order).take n = writesInOrder block (order.take n) := List.map_take.symm

/-- With the registers read, the start is RTC_DEC on a block just reset, and the clock is the decoded time (R130, R131). -/
theorem boot_some (regs : RegBlock) (s : State) :
    boot (some regs) s =
      { block := s.clear.deliver (.ok (packTime (rtcDecode regs)))
        clock := some (rtcDecode regs), relay := none, stop := none } := by
  rw [boot, syncClock_some (clear_fault s), unpackTime_packTime _ (rtcDecode_fits regs)]

/-- With the RTC read failed, the start stops with the block just reset (R110, R130). -/
theorem boot_none (s : State) : boot none s = stopped s.clear none (.error .hardwareIO) := rfl

/-! ## The obligations -/

/-- Settles O10: the reset clears `S` either way, and the free value of log entry 5 picks the responses. -/
theorem resetWinsOverAnOutstandingCommand : Obligations.ResetWinsOverAnOutstandingCommand := by
  intro s w rest hin
  obtain ⟨u, hrun⟩ := runCommand_exec_next w (s.withInputs rest)
  have halone : step { s with inputs := .command w :: rest } = .next u := (step_command rfl).trans hrun
  refine ⟨_, u, step_overtaken hin, halone, rfl, rfl, rfl, rfl, ?_⟩
  rw [← responsesAfter_of_next hrun]
  exact overtake_responses exec w (s.withInputs rest)

/-- Settles O49: the writes done so far are writes of one block, and each register they reached is new. -/
theorem tornReadMixesOldAndNew : Obligations.TornReadMixesOldAndNew := by
  intro regs block order n k _
  rw [take_writesInOrder, get_chipRun_writesInOrder]

/-- Settles O51: the start with the registers read, and with the read failed. -/
theorem bootSyncsTheClockAndForgetsTheMonitor : Obligations.BootSyncsTheClockAndForgetsTheMonitor := by
  intro s regs
  rw [boot_some, boot_none]
  exact ⟨rfl, rfl, rfl, rfl, rfl, rfl, rfl, rfl⟩

/-- Settles O2: the reset leaves a block not faulted, so a command that decodes is run by the next step (O3). -/
theorem resetInputClearsAllOfS : Obligations.ResetInputClearsAllOfS := by
  intro s rest hin
  refine ⟨_, step_reset hin, rfl, rfl, rfl, fun w i rest' hrest hd => ?_⟩
  exact stepRunsTheDecodedCommand _ w rest' i hrest (clear_fault _) hd

end Sys2Proof.Machine
end
